-- ==== Sys2Proof/Word.lean ====
section
/-! DEFINITION. The widths of the block's ports: bytes on RX and in every field of a wire format (rule R8, `BYTE_W` = 8
of rule R7), the four-bit operation code of rule R72, and the 16-bit raw operand of the CAL operations (rule R72,
decision D25). -/

namespace Sys2Proof

/-- A byte, an integer in 0..255; bit 7 is the most significant bit (rule R8, decision D23). -/
abbrev Byte := BitVec 8

/-- An operation code `op[3:0]` (rule R72). -/
abbrev OpCode := BitVec 4

/-- A raw ADC sample as it arrives on port CMD, already assembled, unsigned (rule R42, decision D25). -/
abbrev Raw := BitVec 16

end Sys2Proof
end

