-- ==== Sys2Proof/Config.lean ====
section
/-! DEFINITION. What an instance of the block fixes and never changes: the four calibration tables and the sizes that
rule R7 leaves OPEN. They are plain data carried by State (rule R20 lists the tables there as "configuration,
constant"), so a statement about every state is a statement about every table and every size. The block has no free
value: nothing in the spec has an undefined result. -/

namespace Sys2Proof

/-- The four tables in the order of decision D13: t = 0 temperature-A, 1 temperature-B, 2 pressure, 3 voltage/UI-units. -/
inductive TableId
  | tempA
  | tempB
  | press
  | volt
  deriving DecidableEq, Repr

/-- `RAW_W[t]`: the raw width of a table, 8 or 16 bits (rule R7). -/
inductive RawWidth
  | w8
  | w16
  deriving DecidableEq, Repr

/-- One (rawValue, physicalValue) pair `(x_i, y_i)` of a table (rule R30). The values are exact integers; that they fit
`RAW_W[t]` and `PHYS_W` bits is part of the table's well-formedness, not of its type, because a table that does not fit
is a table the model must be able to refuse (rule R30, decision D12). -/
structure Breakpoint where
  raw  : Nat
  phys : Int
  deriving DecidableEq, Repr

/-- A calibration table: its raw width and its breakpoints in order, `x_0` first (rule R30). -/
structure Table where
  rawW   : RawWidth
  points : List Breakpoint
  deriving DecidableEq, Repr

/-- The configuration of one instance (rule R7). A size of `none` is unbounded, the default that section 6 of
`92_eei_decisions.md` allows. -/
structure Config where
  /-- `TAB[0]`, `RAW_W[0]`. -/
  tempA : Table
  /-- `TAB[1]`, `RAW_W[1]`. -/
  tempB : Table
  /-- `TAB[2]`, `RAW_W[2]`. -/
  press : Table
  /-- `TAB[3]`, `RAW_W[3]`. -/
  volt : Table
  /-- `PHYS_W`: bits of a physical value. -/
  physW : Nat
  /-- `LUT_DEPTH`: the most breakpoints a table can hold. -/
  lutDepth : Option Nat
  /-- `BUF_CAP`: the capacity of BUF in bytes. -/
  bufCap : Option Nat
  /-- `BUILD_MAX_DATA`: the longest `data` operand of BUILD. -/
  buildMaxData : Option Nat
  /-- `CSUM_MAX_LEN`: the longest operand of CSUM and VERIFY. -/
  csumMaxLen : Option Nat
  deriving DecidableEq, Repr

/-- The table every `TAB[t]` holds in `State.reset`. DESIGN CHOICE (assumption log 1), unsafe: the spec gives no table
(`91_not_in_source.md` N5); this one is the smallest well-formed table, so that a CAL operation runs from reset. -/
def Table.placeholder : Table := { rawW := .w8, points := [{ raw := 0, phys := 0 }] }

/-- The configuration of `State.reset`: placeholder tables (log 1), `PHYS_W` at the default 16 of rule R7, every
other size unbounded (DESIGN CHOICE, log 2; section 6 of `92_eei_decisions.md` allows each). -/
def Config.placeholder : Config where
  tempA := .placeholder
  tempB := .placeholder
  press := .placeholder
  volt := .placeholder
  physW := 16
  lutDepth := none
  bufCap := none
  buildMaxData := none
  csumMaxLen := none

end Sys2Proof
end

