-- ==== Sys2Proof/Syntax.lean ====
section
/-! DEFINITION. The instructions: one constructor for each of the 19 rows of spec/opcode_table.json, and the forms in
which an instruction stands before it is decoded (a leader byte at the front of BUF, an operation code with its operands,
the RST pin). -/

namespace Sys2Proof

/-- The instruction set (rules R3, R61, R72). The five extraction steps carry exactly the bits of their leader byte that
the class leaves open: nothing for the one-value classes, the whole byte for UDS and NOISE. -/
inductive Instr
  /-- Extraction step on a Telemetry leader `0x88` (rule R134). -/
  | x88
  /-- Extraction step on a Screen-request leader `0x66` (rule R135). -/
  | x66
  /-- Extraction step on a Config leader `0x77` (rule R136). -/
  | x77
  /-- Extraction step on a UDS-family header byte (rule R137). -/
  | xuds (header : Byte)
  /-- Extraction step on a byte of class NOISE (rule R138). -/
  | xnoise (byte : Byte)
  /-- The reserved operation code 0x0 (rule R73). -/
  | reserved0
  /-- `PUSH chunk` (rules R130, R131). -/
  | push (chunk : List Byte)
  /-- `CLR` (rule R139). -/
  | clr
  /-- `CSUM bytes` (rule R90). -/
  | csum (bytes : List Byte)
  /-- `VERIFY bytes` (rule R91). -/
  | verify (bytes : List Byte)
  /-- `BUILD dst src sid data` (rule R92). -/
  | build (dst src sid : Byte) (data : List Byte)
  /-- `ACKS n` (rule R93). -/
  | acks (n : Byte)
  /-- `ACKP n` (rule R94). -/
  | ackp (n : Byte)
  /-- `INTERP t raw` (rule R113). -/
  | interp (t : TableId) (raw : Raw)
  /-- `TEMPA raw` (rule R114). -/
  | tempa (raw : Raw)
  /-- `TEMPB raw` (rule R115). -/
  | tempb (raw : Raw)
  /-- `PRESS raw` (rule R116). -/
  | press (raw : Raw)
  /-- `VOLT raw` (rule R117). -/
  | volt (raw : Raw)
  /-- `RST`, the pin of port CTL (rule R220). -/
  | rst
  deriving DecidableEq, Repr

/-- The operands that travel with an operation code (rule R72, column "operands"; order of rule R75). -/
inductive Operands
  /-- No operand. -/
  | none
  /-- One sequence of bytes: the chunk of PUSH, the `bytes` of CSUM and VERIFY. -/
  | bytes (s : List Byte)
  /-- The operands of BUILD. -/
  | frame (dst src sid : Byte) (data : List Byte)
  /-- One byte: the `n` of ACKS and ACKP. -/
  | number (n : Byte)
  /-- One 16-bit raw sample: the operand of the CAL operations. -/
  | raw (r : Raw)
  deriving DecidableEq, Repr

/-- An instruction before decoding, by the encoding space of its row in spec/opcode_table.json. -/
inductive Encoded
  /-- Space "first byte of a frame on port RX (BUF[0])". -/
  | leader (h : Byte)
  /-- Space "operation code op[3:0]", with the operands of that operation: an entry (code, operands) of an operation
  trace (rules R72, R73). -/
  | op (code : OpCode) (operands : Operands)
  /-- The RST pin, which has no code. -/
  | pin
  deriving DecidableEq, Repr

end Sys2Proof
end

