-- ==== Sys2Proof/WellFormed.lean ====
section
/-! DEFINITION. Which terms of `Instr` are instructions of the block: the header of an XUDS is a byte of class UDS, the
byte of an XNOISE a byte of class NOISE (rule R61). Every other operand is admitted at every value of its type (rules
R69, R72; a length limit of an implementation is a matter of its Config, rule R194). -/

namespace Sys2Proof

/-- The 127 header bytes of class UDS: bit 7 set and not 0x88 (rule R61, row 4). -/
def udsHeader (h : Byte) : Bool := h.getLsbD 7 && h != 0x88

/-- The 126 bytes of class NOISE: bit 7 clear, not 0x66, not 0x77 (rule R61, row 5). -/
def noiseByte (g : Byte) : Bool := !g.getLsbD 7 && g != 0x66 && g != 0x77

/-- The well-formedness of an instruction. -/
def Instr.wf : Instr → Bool
  | .x88 => true
  | .x66 => true
  | .x77 => true
  | .xuds header => udsHeader header
  | .xnoise byte => noiseByte byte
  | .reserved0 => true
  | .push _ => true
  | .clr => true
  | .csum _ => true
  | .verify _ => true
  | .build _ _ _ _ => true
  | .acks _ => true
  | .ackp _ => true
  | .interp _ _ => true
  | .tempa _ => true
  | .tempb _ => true
  | .press _ => true
  | .volt _ => true
  | .rst => true

end Sys2Proof
end

