-- ==== Sys2Proof/Decode.lean ====
section
/-! DEFINITION. Decoding and encoding, both written from rules R61, R71, R72, R73: the classification of a leader byte,
the reading of an operation code with its operands, the narrower reading of port CMD, the encoder, and the opcode table
as rows. -/

namespace Sys2Proof

/-- The five wire-format classes of rule R61. -/
inductive WireClass
  | t88
  | s66
  | c77
  | uds
  | noise
  deriving DecidableEq, Repr

/-- Why the decoder gives no instruction. -/
inductive DecodeError
  /-- BUF is empty: there is no leader (`LEADER` of rule R28 is undefined). -/
  | emptyBuffer
  /-- Code 0x1 or 0x2 on port CMD (rule R73). -/
  | reservedOnCmd (code : OpCode)
  /-- The operands are not those rule R72 gives the code. -/
  | wrongOperands (code : OpCode)
  deriving DecidableEq, Repr

/-- The class of a leader, tested in the order of rule R61. -/
def classify (h : Byte) : WireClass :=
  if h = 0x88 then .t88
  else if h = 0x66 then .s66
  else if h = 0x77 then .c77
  else if h.getLsbD 7 then .uds
  else .noise

/-- The extraction step a leader selects (rules R61, R132). -/
def decodeLeader (h : Byte) : Instr :=
  match classify h with
  | .t88 => .x88
  | .s66 => .x66
  | .c77 => .x77
  | .uds => .xuds h
  | .noise => .xnoise h

/-- The instruction at the front of the byte buffer: its first byte alone selects it (rule R60). -/
def decodeFront : List Byte → Except DecodeError Instr
  | [] => .error .emptyBuffer
  | h :: _ => .ok (decodeLeader h)

/-- The operation a code and its operands stand for in an operation trace (rule R72; 0x0 is the reserved row). -/
def decodeOp (code : OpCode) (operands : Operands) : Except DecodeError Instr :=
  match code.toNat, operands with
  | 0x0, .none => .ok .reserved0
  | 0x1, .bytes chunk => .ok (.push chunk)
  | 0x2, .none => .ok .clr
  | 0x3, .bytes s => .ok (.csum s)
  | 0x4, .bytes s => .ok (.verify s)
  | 0x5, .frame dst src sid data => .ok (.build dst src sid data)
  | 0x6, .number n => .ok (.acks n)
  | 0x7, .number n => .ok (.ackp n)
  | 0x8, .raw r => .ok (.interp .tempA r)
  | 0x9, .raw r => .ok (.interp .tempB r)
  | 0xA, .raw r => .ok (.interp .press r)
  | 0xB, .raw r => .ok (.interp .volt r)
  | 0xC, .raw r => .ok (.tempa r)
  | 0xD, .raw r => .ok (.tempb r)
  | 0xE, .raw r => .ok (.press r)
  | 0xF, .raw r => .ok (.volt r)
  | _, _ => .error (.wrongOperands code)

/-- Port CMD: the codes of rule R72, except that 0x1 and 0x2 "also select nothing" there, and that 0x0 is the reserved code
whatever stands beside it (rule R73). -/
def decodeCmd (code : OpCode) (operands : Operands) : Except DecodeError Instr :=
  if code = 0x1 ∨ code = 0x2 then .error (.reservedOnCmd code)
  else if code = 0x0 then .ok .reserved0
  else decodeOp code operands

/-- The decoder over the three encoding spaces. -/
def decode : Encoded → Except DecodeError Instr
  | .leader h => .ok (decodeLeader h)
  | .op code operands => decodeOp code operands
  | .pin => .ok .rst

/-- The code `0x8 + t` of INTERP (rule R72). -/
def interpCode : TableId → OpCode
  | .tempA => 0x8
  | .tempB => 0x9
  | .press => 0xA
  | .volt => 0xB

/-- The encoder, from the same tables (rules R61, R72). -/
def encode : Instr → Encoded
  | .x88 => .leader 0x88
  | .x66 => .leader 0x66
  | .x77 => .leader 0x77
  | .xuds header => .leader header
  | .xnoise byte => .leader byte
  | .reserved0 => .op 0x0 .none
  | .push chunk => .op 0x1 (.bytes chunk)
  | .clr => .op 0x2 .none
  | .csum s => .op 0x3 (.bytes s)
  | .verify s => .op 0x4 (.bytes s)
  | .build dst src sid data => .op 0x5 (.frame dst src sid data)
  | .acks n => .op 0x6 (.number n)
  | .ackp n => .op 0x7 (.number n)
  | .interp t r => .op (interpCode t) (.raw r)
  | .tempa r => .op 0xC (.raw r)
  | .tempb r => .op 0xD (.raw r)
  | .press r => .op 0xE (.raw r)
  | .volt r => .op 0xF (.raw r)
  | .rst => .pin

/-- The encoding spaces of spec/opcode_table.json. -/
inductive Space
  | leader
  | op4
  | pin
  deriving DecidableEq, Repr

/-- A row of spec/opcode_table.json: a word belongs to it when `word &&& mask = pattern` and no row of a smaller
priority number takes it. -/
structure Row where
  mnemonic : String
  space    : Space
  mask     : Nat
  pattern  : Nat
  priority : Nat
  deriving DecidableEq, Repr

/-- The rows of the wire-leader space. -/
def leaderRows : List Row :=
  [ ⟨"X88", .leader, 0xFF, 0x88, 0⟩, ⟨"X66", .leader, 0xFF, 0x66, 0⟩, ⟨"X77", .leader, 0xFF, 0x77, 0⟩,
    ⟨"XUDS", .leader, 0x80, 0x80, 1⟩, ⟨"XNOISE", .leader, 0x80, 0x00, 1⟩ ]

/-- The rows of the operation-code space. -/
def opRows : List Row :=
  [ ⟨"RESERVED0", .op4, 0xF, 0x0, 0⟩, ⟨"PUSH", .op4, 0xF, 0x1, 0⟩, ⟨"CLR", .op4, 0xF, 0x2, 0⟩,
    ⟨"CSUM", .op4, 0xF, 0x3, 0⟩, ⟨"VERIFY", .op4, 0xF, 0x4, 0⟩, ⟨"BUILD", .op4, 0xF, 0x5, 0⟩,
    ⟨"ACKS", .op4, 0xF, 0x6, 0⟩, ⟨"ACKP", .op4, 0xF, 0x7, 0⟩, ⟨"INTERP", .op4, 0xC, 0x8, 0⟩,
    ⟨"TEMPA", .op4, 0xF, 0xC, 0⟩, ⟨"TEMPB", .op4, 0xF, 0xD, 0⟩, ⟨"PRESS", .op4, 0xF, 0xE, 0⟩,
    ⟨"VOLT", .op4, 0xF, 0xF, 0⟩ ]

/-- The table's own mnemonic of an instruction. -/
def Instr.mnemonic : Instr → String
  | .x88 => "X88"
  | .x66 => "X66"
  | .x77 => "X77"
  | .xuds _ => "XUDS"
  | .xnoise _ => "XNOISE"
  | .reserved0 => "RESERVED0"
  | .push _ => "PUSH"
  | .clr => "CLR"
  | .csum _ => "CSUM"
  | .verify _ => "VERIFY"
  | .build _ _ _ _ => "BUILD"
  | .acks _ => "ACKS"
  | .ackp _ => "ACKP"
  | .interp _ _ => "INTERP"
  | .tempa _ => "TEMPA"
  | .tempb _ => "TEMPB"
  | .press _ => "PRESS"
  | .volt _ => "VOLT"
  | .rst => "RST"

/-- Whether a word falls under a row's mask and pattern. -/
def Row.takes (r : Row) (word : Nat) : Bool := word &&& r.mask == r.pattern

/-- The row of a table that a word belongs to: among the rows that take it, one of the smallest priority number. -/
def rowOf (rows : List Row) (word : Nat) : Option Row :=
  match rows.find? (fun r => r.takes word && r.priority == 0) with
  | some r => some r
  | none => rows.find? (fun r => r.takes word)

/-- The disjoint mask/match pairs of rule R71, class by class. -/
def leaderCover : WireClass → List (Byte × Byte)
  | .t88 => [(0xFF, 0x88)]
  | .s66 => [(0xFF, 0x66)]
  | .c77 => [(0xFF, 0x77)]
  | .uds => [(0xC0, 0xC0), (0xE0, 0xA0), (0xF0, 0x90), (0xF8, 0x80), (0xFC, 0x8C), (0xFE, 0x8A), (0xFF, 0x89)]
  | .noise => [(0xC0, 0x00), (0xE0, 0x40), (0xFC, 0x60), (0xFE, 0x64), (0xFF, 0x67), (0xF8, 0x68), (0xFC, 0x70),
               (0xFE, 0x74), (0xFF, 0x76), (0xF8, 0x78)]

/-- The operands of an operation code with every operand bit zero and every sequence empty. -/
def zeroOperands (code : OpCode) : Operands :=
  match code.toNat with
  | 0x0 => .none
  | 0x2 => .none
  | 0x1 => .bytes []
  | 0x3 => .bytes []
  | 0x4 => .bytes []
  | 0x5 => .frame 0 0 0 []
  | 0x6 => .number 0
  | 0x7 => .number 0
  | _ => .raw 0

/-- How a word of spec/opcode_table.json is read when only its width and its bits are given (assumption log 9): a row
without a word is the RST pin; a word narrower than a byte is an operation code; a byte from 0x01 to 0x0F is an operation
code in a whole byte; every other byte is a leader. -/
def tableEncoded (nbits w : Nat) : Encoded :=
  if nbits = 0 then .pin
  else if nbits < 8 ∨ (1 ≤ w ∧ w < 16) then .op (BitVec.ofNat 4 w) (zeroOperands (BitVec.ofNat 4 w))
  else .leader (BitVec.ofNat 8 w)

/-- The host's question: the instruction the decoder reads from a word of the opcode table. -/
def decodeTableWord (nbits w : Nat) : Option Instr :=
  match decode (tableEncoded nbits w) with
  | .ok i => some i
  | .error _ => none

end Sys2Proof
end

