-- ==== Sys2Proof/Machine/State.lean ====
section
/-! DEFINITION. The state of the block (rule R20), the records it hands out on ports EV and RES, the transactions waiting
on its input ports, the reasons a step can stop, and the state after reset (rules R34, R220). -/

namespace Sys2Proof.Machine

/-- The event record of port EV (rule R74). `sid` is an Option because the spec itself lets it be absent (rule R65). -/
inductive Event
  /-- Kind 0: one dropped byte, the report of `FramingDesync`; its `raw` is that byte alone. -/
  | desync (byte : Byte)
  /-- Kind 1. -/
  | telemetry88 (screen : Byte) (payload : List Byte) (checksumOk : Bool) (raw : List Byte)
  /-- Kind 2. -/
  | screenRequest66 (screen : Byte) (raw : List Byte)
  /-- Kind 3. -/
  | config77 (package : Byte) (payload : List Byte) (checksumOk : Bool) (raw : List Byte)
  /-- Kind 4. -/
  | udsFrame (dst src : Byte) (sid : Option Byte) (data : List Byte) (checksumOk : Bool) (raw : List Byte)
  deriving DecidableEq, Repr

/-- A result on port RES (rule R72, column "result"). Integers are the mathematical integers of rule R10; their
two's-complement form on the port is `physOnPort`. -/
inductive Result
  /-- CSUM. -/
  | byte (c : Byte)
  /-- VERIFY. -/
  | bit (ok : Bool)
  /-- BUILD, ACKS, ACKP. -/
  | bytes (s : List Byte)
  /-- INTERP, TEMPA, TEMPB, VOLT. -/
  | phys (y : Int)
  /-- PRESS: an integer count of tenths of a bar (rule R116). -/
  | tenthsOfBar (p10 : Int)
  deriving DecidableEq, Repr

/-- One delivery on port RES: "its result together with its operands" (rule R182). -/
structure ResRecord where
  op     : Instr
  result : Result
  deriving DecidableEq, Repr

/-- What the surroundings do next at the ports (rules R80, R183). The list of these in State is the order in which they
act; nothing in it is tied to the atomic actions of the Frame Decoder, so CLR, RST and CMD can stand between any two of them. -/
inductive Transaction
  /-- Port RX, a whole operation PUSH: a chunk, which is a finite run of one-byte transactions (decision D2), with no action of
  another port between them (rule R182). -/
  | push (chunk : List Byte)
  /-- Port RX, one byte: the atomic action (a) of rule R45 alone. The extraction steps that rule R131 has follow it are
  steps of their own, and another port may act before each of them (rule R183; log 8). -/
  | rx (b : Byte)
  /-- Port CTL: the CLR strobe. -/
  | clr
  /-- Port CTL: the RST pin. -/
  | rst
  /-- Port CMD: an operation code and operands. -/
  | cmd (code : OpCode) (operands : Operands)
  /-- The consumer of EV: from now on it accepts that many records, `none` for any number (rule R53). -/
  | evAccept (n : Option Nat)
  /-- The surroundings leave the block alone for one atomic action: the Frame Decoder takes an extraction step if it can (log 5). -/
  | idle
  deriving DecidableEq, Repr

/-- The state. The first five fields are rule R20's whole table (architectural, ghost, configuration); the last three
are the MODEL's own: what stands on the ports, which the spec names but does not count as state of the block (log 3, 4). -/
structure State where
  /-- `BUF`: the bytes received and not yet consumed, oldest first (rule R21). -/
  buf : List Byte
  /-- `RXCNT`: bytes accepted by PUSH since the last RST, ghost (rule R22). -/
  rxcnt : Nat
  /-- `POS`: bytes that have left BUF since the last RST, ghost (rules R22, R26). -/
  pos : Nat
  /-- `OUT`: every event record emitted since the last RST, oldest first, ghost (rules R22, R23). -/
  out : List Event
  /-- `TAB[0..3]`, `RAW_W[0..3]` and the sizes of rule R7: constants of the instance (rule R30). -/
  cfg : Config
  /-- What port RES has delivered, oldest first: the k-th record answers the k-th command (decision D29). -/
  res : List ResRecord
  /-- What the surroundings do next at the input ports, in the order they do it (rules R48, R183). -/
  input : List Transaction
  /-- How many further records the consumer of EV accepts, `none` for any number (rule R53). -/
  evAccept : Option Nat
  deriving DecidableEq, Repr

/-- The block has no fault that stops it: "Nothing in the decode path is fatal to the process" (60_exceptions.md). Its two
faults, `FramingDesync` and `ChecksumMismatch`, are reported in band as event records and decoding goes on (rules R190 to
R192, R197), so this type has no constructor and no step of the machine ends in a fault. -/
inductive Fault
  deriving DecidableEq, Repr

/-- Why an instruction is given no meaning. Every one is safe: nothing can be proved about a next state. -/
inductive Refusal
  /-- Raised by `exec`'s arms alone, for an instruction not modelled yet. Safe. -/
  | notModelled (mnemonic : String)
  /-- Raised by RESERVED0 and by a step that finds code 0x0, 0x1 or 0x2 on port CMD (rules R73, R194 (b)). Safe. -/
  | reservedCode (code : OpCode)
  /-- Raised by a step that finds on port CMD operands other than "the operands of that operation" (rule R80). Safe. -/
  | wrongOperands (code : OpCode)
  /-- Raised by the CAL operations on a table that is not well-formed (rules R30, R194 (a)). Safe. -/
  | malformedTable (t : TableId)
  /-- Raised by CSUM, VERIFY and BUILD on an operand longer than the instance's bound (rule R194 (c)). Safe. -/
  | operandTooLong
  /-- Raised by PUSH on an instance with `BUF_CAP < 259`, which "is not this block" (rule R7, decision D3, U15). Safe. -/
  | bufferTooSmall
  /-- Raised by an extraction step given to a state whose leader does not select it; no step of the machine does that
  (rules R61, R132). Safe. -/
  | leaderNotAtFront
  deriving DecidableEq, Repr

/-- The state after RST (rules R34, R220): no byte pending, both counters zero, no event. The configuration and the
port fields are not reset by RST; their values here are DESIGN CHOICE (log 1 to 4). -/
def State.reset : State where
  buf := []
  rxcnt := 0
  pos := 0
  out := []
  cfg := .placeholder
  res := []
  input := []
  evAccept := none

end Sys2Proof.Machine
end

