-- ==== Sys2Proof/Machine/Flags.lean ====
section
/-! DEFINITION. The function `sum8` and the two one-bit results of the block, neither of which is stored (rule R27): the
`checksum_ok` of a candidate frame and the result of VERIFY. -/

namespace Sys2Proof.Machine

/-- `sum8(s)`: the exact sum of the bytes taken unsigned, modulo 256 (rules R9, R90). -/
def sum8 (s : List Byte) : Byte := BitVec.ofNat 8 (s.map BitVec.toNat).sum

/-- `s[i]`, the first byte at index 0 (rule R9); read only where `i < |s|` has been tested (rule R44). -/
def byteAt (s : List Byte) (i : Nat) : Byte := s.getD i 0

/-- `s[i..j)` (rule R9). -/
def slice (s : List Byte) (i j : Nat) : List Byte := (s.drop i).take (j - i)

/-- The checksum test of a candidate frame `f` of `total = |f|` bytes: `f[total-1] = sum8(f[0..total-1))` (rule R68). -/
def checksumOk (f : List Byte) : Bool := byteAt f (f.length - 1) == sum8 (slice f 0 (f.length - 1))

/-- The result of VERIFY: 0 below two bytes, then the same comparison (rule R91). -/
def verifyBit (bytes : List Byte) : Bool := if bytes.length < 2 then false else checksumOk bytes

end Sys2Proof.Machine
end

