-- ==== Sys2Proof/Machine/Operands.lean ====
section
/-! DEFINITION. The operand forms: the table an operation names (rules R7, R30), the raw sample as an integer (rule R110),
the length limits of an instance (rule R7), the byte constants of the formats (rule R78), and the two's-complement form of
a physical value (decision D11). -/

namespace Sys2Proof.Machine

/-- `TAB[t]` (rule R30). -/
def tab (cfg : Config) : TableId → Table
  | .tempA => cfg.tempA
  | .tempB => cfg.tempB
  | .press => cfg.press
  | .volt => cfg.volt

/-- The number of bits of a raw width. -/
def rawBits : RawWidth → Nat
  | .w8 => 8
  | .w16 => 16

/-- Whether a length respects an instance's limit; `none` is no limit (rule R7). -/
def fits (limit : Option Nat) (n : Nat) : Bool :=
  match limit with
  | none => true
  | some m => decide (n ≤ m)

/-- `x_0 < x_1 < ... < x_{n-1}` (rule R30, conflict C4). -/
def strictlyIncreasing : List Breakpoint → Bool
  | [] => true
  | [_] => true
  | p :: q :: rest => decide (p.raw < q.raw) && strictlyIncreasing (q :: rest)

/-- A signed integer of `w` bits: `-2^(w-1) ≤ y < 2^(w-1)` (rule R30, decision D11). -/
def fitsSigned (w : Nat) (y : Int) : Bool :=
  decide (-(2 ^ (w - 1) : Int) ≤ y) && decide (y < (2 ^ (w - 1) : Int))

/-- Well-formedness of a table (rule R30, decision D12): at least one and at most `LUT_DEPTH` breakpoints, strictly
increasing raw values of `RAW_W` bits, physical values of `PHYS_W` bits, where `PHYS_W ≥ 2` (92_eei_decisions.md, section 6). -/
def tableWf (cfg : Config) (t : Table) : Bool :=
  decide (2 ≤ cfg.physW) &&
  decide (1 ≤ t.points.length) &&
  fits cfg.lutDepth t.points.length &&
  strictlyIncreasing t.points &&
  t.points.all (fun p => decide (p.raw < 2 ^ rawBits t.rawW) && fitsSigned cfg.physW p.phys)

/-- `MAX_FRAME`, the longest frame the decoder can ask for (rule R7). -/
def maxFrame : Nat := 259

/-- `BUF_CAP >= 259` (rules R7, R54). -/
def capOk (cfg : Config) : Bool :=
  match cfg.bufCap with
  | none => true
  | some c => decide (maxFrame ≤ c)

/-- The raw operand as an unsigned integer (rule R110). -/
def rawInt (r : Raw) : Int := (r.toNat : Int)

/-- A physical value as a two's-complement word on port RES (decision D11). -/
def physOnPort (w : Nat) (y : Int) : BitVec w := BitVec.ofInt w y

/-- The literal `'S','C','R','_'` of a screen request (rules R63, R78). -/
def scrLiteral : List Byte := [0x53, 0x43, 0x52, 0x5F]

/-- The letters `UOKS` of the screen acknowledgement (rules R78, R79). -/
def uoksLiteral : List Byte := [0x55, 0x4F, 0x4B, 0x53]

/-- The letters `UOKP` of the config acknowledgement (rules R78, R79). -/
def uokpLiteral : List Byte := [0x55, 0x4F, 0x4B, 0x50]

end Sys2Proof.Machine
end

