-- ==== Sys2Proof/Machine/Events.lean ====
section
/-! DEFINITION. What an event record says: its kind, its bytes, its fault code, whether it is a validated frame (rules R74,
R190). -/

namespace Sys2Proof.Machine

/-- The `kind` number of a record (rule R74). -/
def Event.kind : Event → Nat
  | .desync _ => 0
  | .telemetry88 _ _ _ _ => 1
  | .screenRequest66 _ _ => 2
  | .config77 _ _ _ _ => 3
  | .udsFrame _ _ _ _ _ _ => 4

/-- `raw`: exactly the bytes the step consumed, in order (rule R74). -/
def Event.raw : Event → List Byte
  | .desync byte => [byte]
  | .telemetry88 _ _ _ raw => raw
  | .screenRequest66 _ raw => raw
  | .config77 _ _ _ raw => raw
  | .udsFrame _ _ _ _ _ raw => raw

/-- `checksum_ok`, which kinds 0 and 2 do not have (rule R74, decision D8). -/
def Event.checksumOk? : Event → Option Bool
  | .desync _ => none
  | .telemetry88 _ _ ok _ => some ok
  | .screenRequest66 _ _ => none
  | .config77 _ _ ok _ => some ok
  | .udsFrame _ _ _ _ ok _ => some ok

/-- `fault(e)`: 1 `FramingDesync`, 2 `ChecksumMismatch`, 0 none (rule R190). -/
def Event.fault (e : Event) : Nat :=
  if e.kind = 0 then 1 else if e.checksumOk? = some false then 2 else 0

/-- A validated frame: kind 1 to 4 with `checksum_ok = 1`, kind 2 always (rule R74). -/
def Event.validated (e : Event) : Bool :=
  match e with
  | .desync _ => false
  | .telemetry88 _ _ ok _ => ok
  | .screenRequest66 _ _ => true
  | .config77 _ _ ok _ => ok
  | .udsFrame _ _ _ _ ok _ => ok

/-- The bytes of a run of events, in order (rule R144). -/
def rawBytes (es : List Event) : List Byte := es.flatMap Event.raw

end Sys2Proof.Machine
end

