-- ==== Sys2Proof/Machine/Ops.lean ====
section
/-! DEFINITION. The named operations over the state: the primitives of rule R44, the emission of an event, the taking of
a step that makes progress (which is how both faults are taken, rule R197), the two clearings, and the delivery of a result.
-/

namespace Sys2Proof.Machine

/-- `MemRead(i, n)`, defined when `i + n <= |BUF|`, with no effect (rules R44, R46). -/
def memRead (s : State) (i n : Nat) : Option (List Byte) :=
  if i + n ≤ s.buf.length then some (slice s.buf i (i + n)) else none

/-- `TabRead(t, i)`, defined when `i < n_t` (rules R30, R44). -/
def tabRead (cfg : Config) (t : TableId) (i : Nat) : Option Breakpoint := (tab cfg t).points[i]?

/-- `|BUF| < BUF_CAP`: RX can accept a byte (rules R44, R54). -/
def rxOpen (s : State) : Bool :=
  match s.cfg.bufCap with
  | none => true
  | some c => decide (s.buf.length < c)

/-- `BufAppend(b)` (rule R44). -/
def bufAppend (b : Byte) (s : State) : State := { s with buf := s.buf ++ [b], rxcnt := s.rxcnt + 1 }

/-- `BufConsume(k)` (rule R44). -/
def bufConsume (k : Nat) (s : State) : State := { s with buf := s.buf.drop k, pos := s.pos + k }

/-- The consumer of EV can accept a record (rule R53). -/
def evAccepts (s : State) : Bool := s.evAccept != some 0

/-- `Emit(e)`: the record goes to the end of OUT and the consumer of EV accepts one record fewer (rules R11, R23, R53). -/
def emit (e : Event) (s : State) : State :=
  { s with out := s.out ++ [e], evAccept := s.evAccept.map (· - 1) }

/-- Taking a step `Progress(e, k)`: "emit the one record and consume the k bytes", one atomic action (rules R45, R133).
When `fault(e) ≠ 0` this is also the whole of taking that fault: no state is saved, no mode changes, nothing is masked
(rule R197), and there is nothing to return from: decoding goes on at the new `BUF[0]` (rule R198). -/
def takeStep (e : Event) (k : Nat) (s : State) : State := bufConsume k (emit e s)

/-- The whole of CLR: BUF is discarded, POS counts what left it, nothing is emitted (rule R139). -/
def clearBuf (s : State) : State := { s with buf := [], pos := s.pos + s.buf.length }

/-- The whole of RST: BUF, both counters and the history are reset; the tables are not touched (rule R220). -/
def resetFd (s : State) : State := { s with buf := [], rxcnt := 0, pos := 0, out := [] }

/-- A result leaves on RES together with its operation (rules R80, R182). -/
def deliver (op : Instr) (r : Result) (s : State) : State := { s with res := s.res ++ [{ op := op, result := r }] }

/-- What the surroundings do next at the input ports. -/
def setInput (q : List Transaction) (s : State) : State := { s with input := q }

/-- What the consumer of EV will accept. -/
def setEvAccept (n : Option Nat) (s : State) : State := { s with evAccept := n }

end Sys2Proof.Machine
end

