-- ==== Sys2Proof/Machine/Calibration.lean ====
section
/-! DEFINITION. The Calibration Decoder (41_calibration_decoder.md): the exact interpolated value (rule R111), its rounding
(rule R112), and INTERP, TEMPA, TEMPB, PRESS, VOLT. -/

namespace Sys2Proof.Machine

/-- `floor(p / q)` for `q > 0`, toward minus infinity (rule R10). -/
def floorDiv (p q : Int) : Int := Int.fdiv p q

/-- An exact rational `num / den` (rule R111). -/
structure Ratio where
  num : Int
  den : Int
  deriving DecidableEq, Repr

/-- The first two neighbouring breakpoints with `x_i <= r < x_{i+1}` (rule R111). -/
def bracket (r : Int) : List Breakpoint → Option (Breakpoint × Breakpoint)
  | [] => none
  | [_] => none
  | p :: q :: rest => if (p.raw : Int) ≤ r ∧ r < (q.raw : Int) then some (p, q) else bracket r (q :: rest)

/-- `N / D` of the third branch of rule R111. -/
def interpolateBetween (r : Int) (p q : Breakpoint) : Ratio :=
  let D := (q.raw : Int) - p.raw
  { num := p.phys * D + (q.phys - p.phys) * (r - p.raw), den := D }

/-- `InterpExact(r, T)`: clamped below, clamped above, else interpolated (rule R111). It is `none` only on a table that is
not well-formed, to which rule R110 gives no meaning. -/
def interpExact (r : Int) (points : List Breakpoint) : Option Ratio :=
  match points.head?, points.getLast? with
  | some first, some last =>
    if r ≤ (first.raw : Int) then some { num := first.phys, den := 1 }
    else if (last.raw : Int) ≤ r then some { num := last.phys, den := 1 }
    else (bracket r points).map (fun pq => interpolateBetween r pq.1 pq.2)
  | _, _ => none

/-- `floor(N / D + 1/2) = floor((2 N + D) / (2 D))`: nearest integer, a tie toward plus infinity (rule R112, decision D9). -/
def roundHalfUp (x : Ratio) : Int := floorDiv (2 * x.num + x.den) (2 * x.den)

/-- `Interp(r, T)` (rule R112), the same for 8-bit and 16-bit tables (decision D10). -/
def interp (r : Int) (points : List Breakpoint) : Option Int := (interpExact r points).map roundHalfUp

/-- `Interp(raw, TAB[t])` where the table is well-formed, nothing where it is not (rules R110, R194 (a)). -/
def calibrate (cfg : Config) (t : TableId) (raw : Raw) : Option Int :=
  if tableWf cfg (tab cfg t) then interp (rawInt raw) (tab cfg t).points else none

/-- A CAL operation: the result in the form its port gives it, or the refusal of a malformed table. -/
def calOp (t : TableId) (raw : Raw) (op : Instr) (form : Int → Result) (s : State) :
    Host.Outcome State Fault Refusal :=
  match calibrate s.cfg t raw with
  | some y => .next (deliver op (form y) s)
  | none => .refused (.malformedTable t)

/-- INTERP (rule R113). -/
def execInterp (t : TableId) (raw : Raw) (s : State) : Host.Outcome State Fault Refusal :=
  calOp t raw (.interp t raw) .phys s

/-- TEMPA (rule R114). -/
def execTempa (raw : Raw) (s : State) : Host.Outcome State Fault Refusal :=
  calOp .tempA raw (.tempa raw) .phys s

/-- TEMPB (rule R115). -/
def execTempb (raw : Raw) (s : State) : Host.Outcome State Fault Refusal :=
  calOp .tempB raw (.tempb raw) .phys s

/-- PRESS: the integer of the table, in tenths of a bar; no division is performed (rule R116, decision D14). -/
def execPress (raw : Raw) (s : State) : Host.Outcome State Fault Refusal :=
  calOp .press raw (.press raw) .tenthsOfBar s

/-- VOLT (rule R117). -/
def execVolt (raw : Raw) (s : State) : Host.Outcome State Fault Refusal :=
  calOp .volt raw (.volt raw) .phys s

end Sys2Proof.Machine
end

