-- ==== Sys2Proof/Machine/ChecksumUnit.lean ====
section
/-! DEFINITION. The Checksum Unit (40_checksum_unit.md): CSUM, VERIFY, BUILD, ACKS, ACKP, and the reserved operation code. -/

namespace Sys2Proof.Machine

/-- BUILD's header `0x80 | ((n + 2) & 0x3F)` for `n` data bytes (rule R92, conflict C1). -/
def buildHeader (n : Nat) : Byte := 0x80 ||| (BitVec.ofNat 8 (n + 2) &&& 0x3F)

/-- The body of a BUILD frame (rule R92). -/
def buildBody (dst src sid : Byte) (data : List Byte) : List Byte :=
  [buildHeader data.length, dst, src, sid] ++ data

/-- The frame BUILD returns (rule R92). -/
def buildFrame (dst src sid : Byte) (data : List Byte) : List Byte :=
  buildBody dst src sid data ++ [sum8 (buildBody dst src sid data)]

/-- A CK operation whose sequence operand has a length limit: the result, or the refusal of rule R194 (c). -/
def ckLimited (limit : Option Nat) (n : Nat) (op : Instr) (r : Result) (s : State) :
    Host.Outcome State Fault Refusal :=
  if fits limit n then .next (deliver op r s) else .refused .operandTooLong

/-- CSUM (rule R90). -/
def execCsum (bytes : List Byte) (s : State) : Host.Outcome State Fault Refusal :=
  ckLimited s.cfg.csumMaxLen bytes.length (.csum bytes) (.byte (sum8 bytes)) s

/-- VERIFY (rule R91). -/
def execVerify (bytes : List Byte) (s : State) : Host.Outcome State Fault Refusal :=
  ckLimited s.cfg.csumMaxLen bytes.length (.verify bytes) (.bit (verifyBit bytes)) s

/-- BUILD (rule R92). -/
def execBuild (dst src sid : Byte) (data : List Byte) (s : State) : Host.Outcome State Fault Refusal :=
  ckLimited s.cfg.buildMaxData data.length (.build dst src sid data) (.bytes (buildFrame dst src sid data)) s

/-- ACKS (rule R93). -/
def execAcks (n : Byte) (s : State) : Host.Outcome State Fault Refusal :=
  .next (deliver (.acks n) (.bytes (uoksLiteral ++ [n])) s)

/-- ACKP (rule R94). -/
def execAckp (n : Byte) (s : State) : Host.Outcome State Fault Refusal :=
  .next (deliver (.ackp n) (.bytes (uokpLiteral ++ [n])) s)

/-- The reserved code 0x0: "the model gives it no meaning and no state changes" (rules R73, R194 (b)). -/
def execReserved0 (_s : State) : Host.Outcome State Fault Refusal := .refused (.reservedCode 0x0)

end Sys2Proof.Machine
end

