-- ==== Sys2Proof/Machine/FrameDecoder.lean ====
section
/-! DEFINITION. The Frame Decoder (42_frame_decoder.md): the five extraction steps as pure functions of the buffer (rules R134
to R138), `Step` (rule R132), `Drain` (rule R133), `NEED` and the views of rule R28, and the meanings of X88, X66, X77, XUDS,
XNOISE, PUSH, CLR and RST. -/

namespace Sys2Proof.Machine

/-- The result of one attempt at extraction (rule R132). -/
inductive StepResult
  | idle
  | wait
  | progress (e : Event) (k : Nat)
  deriving DecidableEq, Repr

/-- `X88(B)` (rule R134). -/
def x88 (B : List Byte) : StepResult :=
  if B.length < 3 then .wait else
  let len := (byteAt B 2).toNat
  let total := len + 4
  if B.length < total then .wait else
  let f := slice B 0 total
  .progress (.telemetry88 (byteAt f 1) (slice f 3 (3 + len)) (checksumOk f) f) total

/-- `X66(B)` (rule R135). -/
def x66 (B : List Byte) : StepResult :=
  if B.length < 6 then .wait else
  if slice B 1 5 = scrLiteral then .progress (.screenRequest66 (byteAt B 5) (slice B 0 6)) 6
  else .progress (.desync 0x66) 1

/-- `X77(B)` (rule R136). -/
def x77 (B : List Byte) : StepResult :=
  if B.length < 3 then .wait else
  let n := (byteAt B 2).toNat
  if n = 0 then .progress (.desync 0x77) 1 else
  let total := n + 3
  if B.length < total then .wait else
  let f := slice B 0 total
  .progress (.config77 (byteAt f 1) (slice f 3 (n + 2)) (checksumOk f) f) total

/-- `header & 0x3F` (rules R65, R137). -/
def udsLen (header : Byte) : Nat := (header &&& 0x3F).toNat

/-- `XUDS(B)` with `B[0] = header` (rule R137). -/
def xuds (header : Byte) (B : List Byte) : StepResult :=
  let L := udsLen header
  let dataLen := L + 2
  let total := dataLen + 2
  if B.length < total then .wait else
  let f := slice B 0 total
  let sid := if L = 0 then none else some (byteAt f 3)
  let data := if L = 0 then [] else slice f 4 (L + 3)
  .progress (.udsFrame (byteAt f 1) (byteAt f 2) sid data (checksumOk f) f) total

/-- `XNOISE(B)` with `B[0] = byte` (rule R138). -/
def xnoise (byte : Byte) : StepResult := .progress (.desync byte) 1

/-- `Step(B)` (rule R132). -/
def fdStep (B : List Byte) : StepResult :=
  match B with
  | [] => .idle
  | h :: _ =>
    match classify h with
    | .t88 => x88 B
    | .s66 => x66 B
    | .c77 => x77 B
    | .uds => xuds h B
    | .noise => xnoise h

/-- `NEED(BUF)`, undefined for the empty buffer (rule R70). -/
def need : List Byte → Option Nat
  | [] => none
  | h :: t =>
    let B := h :: t
    match classify h with
    | .t88 => some (if B.length < 3 then 3 else (byteAt B 2).toNat + 4)
    | .s66 => some 6
    | .c77 => some (if B.length < 3 then 3 else if (byteAt B 2).toNat = 0 then 3 else (byteAt B 2).toNat + 3)
    | .uds => some (udsLen h + 4)
    | .noise => some 1

/-- The view `LEVEL` (rule R28). -/
def level (s : State) : Nat := s.buf.length

/-- The view `LEADER`, undefined when `LEVEL = 0` (rule R28). -/
def leader (s : State) : Option Byte := s.buf.head?

/-- The view `CLASS` (rule R28). -/
def leaderClass (s : State) : Option WireClass := (leader s).map classify

/-- The view `STALLED` (rule R28). -/
def stalled (s : State) : Bool := decide (1 ≤ level s) && (fdStep s.buf == .wait)

/-- BUF is empty or `Step(BUF) = Wait`: "Quiescent" of the glossary (rule R133). -/
def quiescent (B : List Byte) : Bool :=
  match fdStep B with
  | .idle => true
  | .wait => true
  | .progress _ _ => false

/-- One extraction step on the state: idle and waiting write nothing (rule R140); progress is taken when EV accepts the
record and is otherwise held with BUF unchanged (rule R53). -/
def applyStep (r : StepResult) (s : State) : State :=
  match r with
  | .idle => s
  | .wait => s
  | .progress e k => if evAccepts s then takeStep e k s else s

/-- At most `n` rounds of the loop of rule R133. -/
def drainFor : Nat → State → State
  | 0, s => s
  | n + 1, s =>
    match fdStep s.buf with
    | .idle => s
    | .wait => s
    | .progress e k => if evAccepts s then drainFor n (takeStep e k s) else s

/-- `Drain()`: every round consumes at least one byte, so `|BUF|` rounds reach its end (rules R133, R142). -/
def drain (s : State) : State := drainFor s.buf.length s

/-- The byte-serial loop of rule R131. A byte that RX cannot accept, because BUF is full behind a step held by EV, stays on
the port with all that follow it (rule R54, decision D21). -/
def pushBytes : List Byte → State → State
  | [], s => s
  | b :: bs, s => if rxOpen s then pushBytes bs (drain (bufAppend b s)) else setInput (.push (b :: bs) :: s.input) s

/-- The chunk form of rule R130: append everything, then drain. -/
def pushChunk (chunk : List Byte) (s : State) : State := drain (chunk.foldl (fun s b => bufAppend b s) s)

/-- The meaning of an extraction step selected by the leader `h` of class `c`. -/
def execExtract (h : Byte) (c : WireClass) (step : List Byte → StepResult) (s : State) :
    Host.Outcome State Fault Refusal :=
  if s.buf.head? = some h ∧ classify h = c then .next (applyStep (step s.buf) s) else .refused .leaderNotAtFront

/-- X88 (rule R134). -/
def execX88 (s : State) : Host.Outcome State Fault Refusal := execExtract 0x88 .t88 x88 s

/-- X66 (rule R135). -/
def execX66 (s : State) : Host.Outcome State Fault Refusal := execExtract 0x66 .s66 x66 s

/-- X77 (rule R136). -/
def execX77 (s : State) : Host.Outcome State Fault Refusal := execExtract 0x77 .c77 x77 s

/-- XUDS (rule R137). -/
def execXuds (header : Byte) (s : State) : Host.Outcome State Fault Refusal :=
  execExtract header .uds (xuds header) s

/-- XNOISE (rule R138). -/
def execXnoise (byte : Byte) (s : State) : Host.Outcome State Fault Refusal :=
  execExtract byte .noise (fun _ => xnoise byte) s

/-- PUSH in the byte-serial form of rule R131, after any step that was left over is taken, so that it agrees with the chunk form
of rule R130 from every buffer (log 7). -/
def execPush (chunk : List Byte) (s : State) : Host.Outcome State Fault Refusal :=
  if capOk s.cfg then .next (pushBytes chunk (drain s)) else .refused .bufferTooSmall

/-- The hand-over of one byte on RX: the atomic action (a) of rule R45, on an instance that is this block (rule R54, U15). The
extraction steps of rule R131 follow it as steps of the machine. -/
def acceptByte (b : Byte) (s : State) : Host.Outcome State Fault Refusal :=
  if capOk s.cfg then .next (bufAppend b s) else .refused .bufferTooSmall

/-- CLR (rule R139). -/
def execClr (s : State) : Host.Outcome State Fault Refusal := .next (clearBuf s)

/-- RST (rule R220). -/
def execRst (s : State) : Host.Outcome State Fault Refusal := .next (resetFd s)

end Sys2Proof.Machine
end

