-- ==== Sys2Proof/Machine/Dispatch.lean ====
section
/-! DEFINITION. `exec`: one arm for each constructor of `Instr`, each a direct call of that instruction's meaning. -/

namespace Sys2Proof.Machine

def exec (i : Instr) (s : State) : Host.Outcome State Fault Refusal :=
  match i with
  -- Frame Decoder: extraction steps
  | .x88 => Sys2Proof.Machine.execX88 s
  | .x66 => Sys2Proof.Machine.execX66 s
  | .x77 => Sys2Proof.Machine.execX77 s
  | .xuds header => Sys2Proof.Machine.execXuds header s
  | .xnoise byte => Sys2Proof.Machine.execXnoise byte s
  -- Operation codes
  | .reserved0 => Sys2Proof.Machine.execReserved0 s
  | .push chunk => Sys2Proof.Machine.execPush chunk s
  | .clr => Sys2Proof.Machine.execClr s
  | .csum bytes => Sys2Proof.Machine.execCsum bytes s
  | .verify bytes => Sys2Proof.Machine.execVerify bytes s
  | .build dst src sid data => Sys2Proof.Machine.execBuild dst src sid data s
  | .acks n => Sys2Proof.Machine.execAcks n s
  | .ackp n => Sys2Proof.Machine.execAckp n s
  | .interp t raw => Sys2Proof.Machine.execInterp t raw s
  | .tempa raw => Sys2Proof.Machine.execTempa raw s
  | .tempb raw => Sys2Proof.Machine.execTempb raw s
  | .press raw => Sys2Proof.Machine.execPress raw s
  | .volt raw => Sys2Proof.Machine.execVolt raw s
  -- The RST pin
  | .rst => Sys2Proof.Machine.execRst s

end Sys2Proof.Machine
end

