-- ==== Sys2Proof/Machine/Fetch.lean ====
section
/-! DEFINITION. Where the next action comes from. The block fetches nothing at a program counter (rule R26): the surroundings
act on the ports in the order of the list `input`, at any point between two atomic actions (rules R45, R183), and where they
leave the block alone the Frame Decoder works on the front of BUF (rules R48, R53, R54, R80, R131; log 5, 6, 8). -/

namespace Sys2Proof.Machine

/-- An extraction step can be taken now: it makes progress and EV accepts its record (rules R70, R53). -/
def fdReady (s : State) : Bool := !quiescent s.buf && evAccepts s

/-- The actions of port RX, which alone wait for the Frame Decoder: the next byte is appended after the extraction to quiescence
(rule R131). -/
def Transaction.onRx : Transaction → Bool
  | .push _ => true
  | .rx _ => true
  | .clr => false
  | .rst => false
  | .cmd _ _ => false
  | .evAccept _ => false
  | .idle => false

/-- No port but RX acts next. -/
def onlyRxNext : List Transaction → Bool
  | [] => true
  | t :: _ => t.onRx

/-- The first action that can be taken, and those that stay. RX cannot be taken while BUF is full; an action of another port
may then overtake it (rule R54; log 6). -/
def takeTransaction (rxIsOpen : Bool) : List Transaction → Option (Transaction × List Transaction)
  | [] => none
  | t :: q =>
    if t.onRx && !rxIsOpen then (takeTransaction rxIsOpen q).map (fun tq => (tq.1, t :: tq.2)) else some (t, q)

/-- What a step has to do. -/
inductive Fetched
  /-- Run an instruction on the state from which its transaction has been taken. -/
  | run (i : Instr) (s : State)
  /-- Append one byte from RX. -/
  | accept (b : Byte) (s : State)
  /-- No action of the block: the consumer of EV has said what it will accept, or the decoder is idle, waiting or held (rule R204). -/
  | env (s : State)
  /-- The transaction decodes to nothing. -/
  | rejected (e : DecodeError)
  deriving DecidableEq, Repr

/-- The decoded instruction, or the rejection. -/
def fetchedOf (r : Except DecodeError Instr) (s : State) : Fetched :=
  match r with
  | .ok i => .run i s
  | .error e => .rejected e

/-- The Frame Decoder's own move: the extraction step its leader selects, when one can be taken (rules R132, R53). -/
def fdMove (s : State) : Fetched := if fdReady s then fetchedOf (decodeFront s.buf) s else .env s

/-- What an action of the surroundings asks for. -/
def fetchTransaction (t : Transaction) (s : State) : Fetched :=
  match t with
  | .push chunk => .run (.push chunk) s
  | .rx b => .accept b s
  | .clr => .run .clr s
  | .rst => .run .rst s
  | .cmd code operands => fetchedOf (decodeCmd code operands) s
  | .evAccept n => .env (setEvAccept n s)
  | .idle => fdMove s

/-- The fetch. A waiting CLR, RST or command is taken before a ready extraction step ("A CLR that arrives while bytes are pending
wins", rule R196); RX is taken after it (rule R131). -/
def fetch (s : State) : Fetched :=
  if fdReady s && onlyRxNext s.input then fdMove s
  else
    match takeTransaction (rxOpen s) s.input with
    | none => .env s
    | some (t, q) => fetchTransaction t (setInput q s)

/-- The refusal of a transaction that decodes to nothing (rules R73, R80, R194). -/
def refusalOf : DecodeError → Refusal
  | .emptyBuffer => .leaderNotAtFront
  | .reservedOnCmd code => .reservedCode code
  | .wrongOperands code => .wrongOperands code

/-- The action that carries an operation of a trace: PUSH travels on RX, CLR on CTL, the others on CMD (rules R72, R73). -/
def transactionOf (code : OpCode) (operands : Operands) : Transaction :=
  match code.toNat, operands with
  | 0x1, .bytes chunk => .push chunk
  | 0x2, .none => .clr
  | _, _ => .cmd code operands

/-- An action put ahead of all others; for RX, with the Frame Decoder at rest so that it is taken next. -/
def placeTransaction (t : Transaction) (s : State) : State :=
  let s' := if t.onRx && (fdReady s || !rxOpen s) then clearBuf s else s
  setInput (t :: s'.input) s'

/-- The bytes of a word from its least significant byte upward. -/
def bytesOfWord (n w : Nat) : List Byte := (List.range n).map (fun i => BitVec.ofNat 8 (w >>> (8 * i)))

/-- How many bytes the step on a leader needs when every byte after the leader is zero (rule R70). -/
def zeroFrameLength (h : Byte) : Nat :=
  match classify h with
  | .t88 => 4
  | .s66 => 6
  | .c77 => 3
  | .uds => udsLen h + 4
  | .noise => 1

/-- The Frame Decoder put ahead of every port but RX. -/
def placeIdle (s : State) : State := if onlyRxNext s.input then s else setInput (.idle :: s.input) s

/-- A word of the opcode table put where `fetch` finds the next instruction: a leader and the zero bytes its step needs become BUF,
with EV accepting; an operation or the pin becomes the next transaction (log 9, 10). -/
def placeWord (s : State) (nbits w : Nat) : State :=
  match tableEncoded nbits w with
  | .leader h =>
    placeIdle { s with buf := bytesOfWord (zeroFrameLength h) w, rxcnt := s.pos + zeroFrameLength h, evAccept := none }
  | .op code operands => placeTransaction (transactionOf code operands) s
  | .pin => placeTransaction .rst s

end Sys2Proof.Machine
end

