-- ==== Sys2Proof/Machine/Step.lean ====
section
/-! DEFINITION. One step of the block: fetch, then exec. -/

namespace Sys2Proof.Machine

/-- One step: one atomic action (rule R45), or one whole operation that the surroundings give as one (rule R182; log 8). When
nothing can move the state stays as it is (rules R140, R204). -/
def step (s : State) : Host.Outcome State Fault Refusal :=
  match fetch s with
  | .run i s' => exec i s'
  | .accept b s' => acceptByte b s'
  | .env s' => .next s'
  | .rejected e => .refused (refusalOf e)

/-- The state with a word of the opcode table placed where `step` fetches its next instruction. -/
def State.withFetchWord (s : State) (nbits w : Nat) : State := placeWord s nbits w

end Sys2Proof.Machine
end

