-- ==== Sys2Proof/Machine/Frames.lean ====
section
/-! DEFINITION. The reference encoders of rule R77 (definitions for laws and tests, not operations of the block) and the
pseudo-operations of rule R76. -/

namespace Sys2Proof.Machine

/-- `F ++ [sum8(F)]`. -/
def close (F : List Byte) : List Byte := F ++ [sum8 F]

/-- A Telemetry frame without its checksum: `0x88, screen, len, payload[len]` (rule R62). -/
def t88Body (screen : Byte) (p : List Byte) : List Byte := [0x88, screen, BitVec.ofNat 8 p.length] ++ p

/-- A Config frame without its checksum: `0x77, pkgNum, lenField, payload[lenField-1]` (rule R64). -/
def c77Body (package : Byte) (p : List Byte) : List Byte := [0x77, package, BitVec.ofNat 8 (p.length + 1)] ++ p

/-- `EncT88(s, p)`, which requires `|p| <= 255` (rule R77). -/
def encT88 (screen : Byte) (p : List Byte) : List Byte := close (t88Body screen p)

/-- `EncS66(s)` (rule R77). -/
def encS66 (screen : Byte) : List Byte := [0x66] ++ scrLiteral ++ [screen]

/-- `EncC77(k, p)`, which requires `|p| <= 254` (rule R77). -/
def encC77 (package : Byte) (p : List Byte) : List Byte := close (c77Body package p)

/-- `EncUDS(h, b)`, which requires h of class UDS and `|b| = (h & 0x3F) + 2` (rule R77). -/
def encUDS (header : Byte) (b : List Byte) : List Byte := close ([header] ++ b)

/-- A frame as the device sends it. -/
inductive WireFrame
  | t88 (screen : Byte) (payload : List Byte)
  | s66 (screen : Byte)
  | c77 (package : Byte) (payload : List Byte)
  | uds (header dst src sid : Byte) (data : List Byte)
  /-- A UDS frame with `L = 0`, which has no `sid` (rule R65). -/
  | udsShort (header dst src : Byte)
  deriving DecidableEq, Repr

/-- The conditions rule R77 puts on the encoders' operands. -/
def WireFrame.wf : WireFrame → Bool
  | .t88 _ payload => decide (payload.length ≤ 255)
  | .s66 _ => true
  | .c77 _ payload => decide (payload.length ≤ 254)
  | .uds header _ _ _ data => udsHeader header && decide (udsLen header = data.length + 1)
  | .udsShort header _ _ => udsHeader header && decide (udsLen header = 0)

/-- The bytes of a frame (rule R77). -/
def WireFrame.bytes : WireFrame → List Byte
  | .t88 screen payload => encT88 screen payload
  | .s66 screen => encS66 screen
  | .c77 package payload => encC77 package payload
  | .uds header dst src sid data => encUDS header ([dst, src, sid] ++ data)
  | .udsShort header dst src => encUDS header [dst, src]

/-- The event a well-formed frame is decoded into (rule R146). -/
def WireFrame.event (f : WireFrame) : Event :=
  match f with
  | .t88 screen payload => .telemetry88 screen payload true f.bytes
  | .s66 screen => .screenRequest66 screen f.bytes
  | .c77 package payload => .config77 package payload true f.bytes
  | .uds _ dst src sid data => .udsFrame dst src (some sid) data true f.bytes
  | .udsShort _ dst src => .udsFrame dst src none [] true f.bytes

/-- `PUSHB b` (rule R76 (a)). -/
def pushb (b : Byte) : Instr := .push [b]

/-- `STARTCOMM dst src` (rule R76 (c)). -/
def startcomm (dst src : Byte) : Instr := .build dst src 0x81 []

/-- `TESTERPRESENT dst src` (rule R76 (c)). -/
def testerpresent (dst src : Byte) : Instr := .build dst src 0x3E [0x01]

/-- `READLOCAL dst src` (rule R76 (c)). -/
def readlocal (dst src : Byte) : Instr := .build dst src 0x21 [0x01]

end Sys2Proof.Machine
end

