-- ==== Sys2Proof/Safety.lean ====
section
/-! DEFINITION. The words claims use: the premises of a run and what is observed of it (rule R182), the invariants of rule R33,
what an event record of OUT must look like, a chain of extraction steps, and the value an interpolation
must have. -/

namespace Sys2Proof.Machine

/-! ## A run (rule R182) -/

/-- `AfterReset`: the state of rule R34 after RST. -/
def AfterReset (s : State) : Prop := s.buf = [] ∧ s.rxcnt = 0 ∧ s.pos = 0 ∧ s.out = []

/-- `TablesWellFormed`: the four tables satisfy rule R30. -/
def TablesWellFormed (s : State) : Prop := ∀ t : TableId, tableWf s.cfg (tab s.cfg t) = true

/-- `CapacityOk`: `BUF_CAP >= 259`. -/
def CapacityOk (s : State) : Prop := capOk s.cfg = true

/-- `EvAccepts`: the consumer of EV accepts every record offered. -/
def EvAlways (s : State) : Prop := s.evAccept = none

/-- The operations of CK. -/
def isCk : Instr → Bool
  | .csum _ | .verify _ | .build _ _ _ _ | .acks _ | .ackp _ => true
  | .x88 | .x66 | .x77 | .xuds _ | .xnoise _ | .reserved0 | .push _ | .clr | .rst => false
  | .interp _ _ | .tempa _ | .tempb _ | .press _ | .volt _ => false

/-- The operations of CAL. -/
def isCal : Instr → Bool
  | .interp _ _ | .tempa _ | .tempb _ | .press _ | .volt _ => true
  | .x88 | .x66 | .x77 | .xuds _ | .xnoise _ | .reserved0 | .push _ | .clr | .rst => false
  | .csum _ | .verify _ | .build _ _ _ _ | .acks _ | .ackp _ => false

/-- The operations that a run is made of after its RST: "one of `PUSH chunk`, `CLR`, a CK operation or a CAL operation". -/
def isRunOp : Instr → Bool
  | .push _ | .clr => true
  | .csum _ | .verify _ | .build _ _ _ _ | .acks _ | .ackp _ => true
  | .interp _ _ | .tempa _ | .tempb _ | .press _ | .volt _ => true
  | .x88 | .x66 | .x77 | .xuds _ | .xnoise _ | .reserved0 | .rst => false

/-- The operand is within the length limits of the instance (rule R7). -/
def withinLimits (cfg : Config) : Instr → Bool
  | .csum bytes | .verify bytes => fits cfg.csumMaxLen bytes.length
  | .build _ _ _ data => fits cfg.buildMaxData data.length
  | .x88 | .x66 | .x77 | .xuds _ | .xnoise _ | .reserved0 | .push _ | .clr | .rst => true
  | .acks _ | .ackp _ | .interp _ _ | .tempa _ | .tempb _ | .press _ | .volt _ => true

/-- A finite sequence of instructions, one after the other. -/
def runOps : List Instr → State → Host.Outcome State Fault Refusal
  | [], s => .next s
  | i :: is, s =>
    match exec i s with
    | .next t => runOps is t
    | .fault f => .fault f
    | .refused r => .refused r

/-- A run: "one `RST` followed by a finite sequence of operations". That they are operations of a run is the premise `RunOps`. -/
def run (ops : List Instr) (s : State) : Host.Outcome State Fault Refusal := runOps (.rst :: ops) s

/-- Every operation is one that a run may hold. -/
def RunOps (ops : List Instr) : Prop := ∀ i ∈ ops, isRunOp i = true

/-- What is observed of a run: OUT, every result with its operands, and the residue BUF. -/
structure Observation where
  events  : List Event
  results : List ResRecord
  residue : List Byte
  deriving DecidableEq, Repr

/-- What is observed of the run that began in `start` and ended in `finish`. Of RES it is what was delivered since `start`: `res` is the
history of the port and RST does not touch it (log 3), whereas OUT is the history since RST. -/
def observe (start finish : State) : Observation where
  events := finish.out
  results := finish.res.drop start.res.length
  residue := finish.buf

/-- `n` steps of the machine, one after the other. -/
def stepN : Nat → State → Host.Outcome State Fault Refusal
  | 0, s => .next s
  | n + 1, s =>
    match step s with
    | .next t => stepN n t
    | .fault f => .fault f
    | .refused r => .refused r

/-- "no fault recorded" (rule R199). -/
def NoFaultRecorded (s : State) : Prop := ∀ e ∈ s.out, e.fault = 0

/-! ## Invariants (rule R33) -/

/-- I1: `RXCNT = POS + |BUF|`. -/
def CountsAgree (s : State) : Prop := s.rxcnt = s.pos + s.buf.length

/-- The fields of a record are those its own bytes have in the layout of its format (rules R62 to R66), and `checksum_ok` is the
checksum test of those bytes (rules R27, R68). -/
def RecordSound : Event → Prop
  | .desync byte => classify byte = .noise ∨ byte = 0x66 ∨ byte = 0x77
  | .telemetry88 screen payload ok raw =>
    payload.length ≤ 255 ∧
    ∃ c, raw = t88Body screen payload ++ [c] ∧ ok = (c == sum8 (t88Body screen payload))
  | .screenRequest66 screen raw => raw = encS66 screen
  | .config77 package payload ok raw =>
    payload.length ≤ 254 ∧
    ∃ c, raw = c77Body package payload ++ [c] ∧ ok = (c == sum8 (c77Body package payload))
  | .udsFrame dst src sid data ok raw =>
    (sid = none → data = []) ∧
    ∃ header c, udsHeader header = true ∧ header.toNat % 64 = (sid.toList ++ data).length ∧
      raw = [header, dst, src] ++ sid.toList ++ data ++ [c] ∧
      ok = (c == sum8 ([header, dst, src] ++ sid.toList ++ data))

/-- BUF never holds more than `BUF_CAP` bytes (rule R20). -/
def WithinCapacity (s : State) : Prop := ∀ c, s.cfg.bufCap = some c → s.buf.length ≤ c

/-- The invariant of every step. -/
structure Inv (s : State) : Prop where
  counts   : CountsAgree s
  records  : ∀ e ∈ s.out, RecordSound e
  capacity : WithinCapacity s

/-- What RX needs never to be blocked (rule R54): EV accepts everything now and later, `BUF_CAP >= 259`, and BUF holds at most 259 bytes,
the bound of rule R131. -/
structure Flowing (s : State) : Prop where
  ev    : EvAlways s
  cap   : CapacityOk s
  short : s.buf.length ≤ maxFrame
  later : ∀ n, Transaction.evAccept n ∉ s.input

/-- I3 with the premises it needs: EV accepts everything now and later, `BUF_CAP >= 259`, BUF is quiescent, and what the surroundings
do is given as whole operations, so that every point between two steps is one "after a PUSH has returned". -/
structure AtRest (s : State) : Prop where
  ev    : EvAlways s
  cap   : CapacityOk s
  quiet : quiescent s.buf = true
  later : ∀ n, Transaction.evAccept n ∉ s.input
  whole : ∀ b, Transaction.rx b ∉ s.input

/-! ## Chains of extraction steps -/

/-- `Extraction s es t`: from s the extraction steps that emit es, in that order, lead to t (rule R133). -/
inductive Extraction : State → List Event → State → Prop
  | done (s : State) : Extraction s [] s
  | step {s t : State} {e : Event} {k : Nat} {es : List Event} (hp : fdStep s.buf = .progress e k)
      (ha : evAccepts s = true) (rest : Extraction (takeStep e k s) es t) : Extraction s (e :: es) t

/-- The wait conditions of rule R140, as that rule lists them. -/
def WaitCondition (B : List Byte) : Prop :=
  (B.head? = some 0x88 ∧ (B.length < 3 ∨ B.length < (B.getD 2 0).toNat + 4)) ∨
  (B.head? = some 0x66 ∧ B.length < 6) ∨
  (B.head? = some 0x77 ∧ (B.length < 3 ∨ (1 ≤ (B.getD 2 0).toNat ∧ B.length < (B.getD 2 0).toNat + 3))) ∨
  (∃ h, B.head? = some h ∧ udsHeader h = true ∧ B.length < h.toNat % 64 + 4)

/-! ## Numbers -/

/-- The exact sum of a sequence of bytes, each taken unsigned (rule R90). -/
def byteSum (s : List Byte) : Nat := (s.map BitVec.toNat).sum

/-- `D` of rule R111. -/
def bracketD (p q : Breakpoint) : Int := (q.raw : Int) - p.raw

/-- `N` of rule R111. -/
def bracketN (r : Int) (p q : Breakpoint) : Int := p.phys * bracketD p q + (q.phys - p.phys) * (r - p.raw)

/-- y is the value rules R111 and R112 give for r: the first value at or below the first breakpoint, the last value at or above
the last, and between two neighbours the integer with `y <= N / D + 1/2 < y + 1`. -/
def IsInterp (r : Int) (points : List Breakpoint) (y : Int) : Prop :=
  (∀ p, points.head? = some p → r ≤ p.raw → y = p.phys) ∧
  (∀ p, points.getLast? = some p → (p.raw : Int) ≤ r → y = p.phys) ∧
  (∀ p q, [p, q] <:+: points → (p.raw : Int) ≤ r → r < q.raw →
    2 * bracketD p q * y ≤ 2 * bracketN r p q + bracketD p q ∧
    2 * bracketN r p q + bracketD p q < 2 * bracketD p q * (y + 1))

end Sys2Proof.Machine
end

