-- ==== Sys2Proof/Certificates/Slice0/Obligations.lean ====
section
/-! DEFINITION. The statements for the provers. Each docstring names the rule or the section it formalises; where a statement rests
on a choice the spec marks as its own (a decision D<n>), the docstring says so. -/

open Sys2Proof Sys2Proof.Machine

/-! ## Reset and clear -/

/-- 10_state.md section 7 and 70_reset_and_hazards.md section 1: the state after reset. That it is empty is decision D16. -/
def Obligations.ResetStateIsEmptyAndIdle : Prop :=
  AfterReset State.reset ∧ quiescent State.reset.buf = true ∧ need State.reset.buf = none

/-- 70_reset_and_hazards.md section 1: RST writes BUF, RXCNT, POS and OUT and nothing else (decision D16). -/
def Obligations.RstClearsBufCountersAndHistory : Prop :=
  ∀ s : State, exec .rst s = .next { s with buf := [], rxcnt := 0, pos := 0, out := [] }

/-- 42_frame_decoder.md section 3: CLR discards BUF, counts the discarded bytes in POS, emits nothing (decision D30), writes nothing
else, and is idempotent; where the counts agree POS becomes RXCNT (10_state.md section 7). -/
def Obligations.ClrDiscardsPendingBytesSilently : Prop :=
  ∀ s : State, ∃ t : State, exec .clr s = .next t ∧ t = { s with buf := [], pos := s.pos + s.buf.length } ∧
    (CountsAgree s → t.pos = s.rxcnt) ∧ exec .clr t = .next t

/-! ## Encodings -/

/-- Rule R61. -/
def Obligations.LeaderClassesPartitionTheByteValues : Prop :=
  (∀ h : Byte,
    (classify h = .t88 ↔ h = 0x88) ∧ (classify h = .s66 ↔ h = 0x66) ∧ (classify h = .c77 ↔ h = 0x77) ∧
    (classify h = .uds ↔ 128 ≤ h.toNat ∧ h ≠ 0x88) ∧
    (classify h = .noise ↔ h.toNat < 128 ∧ h ≠ 0x66 ∧ h ≠ 0x77) ∧
    (classify h = .t88 → decodeLeader h = .x88) ∧ (classify h = .s66 → decodeLeader h = .x66) ∧
    (classify h = .c77 → decodeLeader h = .x77) ∧ (classify h = .uds → decodeLeader h = .xuds h) ∧
    (classify h = .noise → decodeLeader h = .xnoise h)) ∧
  ((List.range 256).map (fun n => classify (BitVec.ofNat 8 n))).count .uds = 127 ∧
  ((List.range 256).map (fun n => classify (BitVec.ofNat 8 n))).count .noise = 126

/-- 30_encoding.md section 2: the disjoint pairs cover every byte value exactly once, in the class the leader has. -/
def Obligations.DisjointCoverTakesEveryLeaderOnce : Prop :=
  ∀ h : Byte,
    (([.t88, .s66, .c77, .uds, .noise] : List WireClass).flatMap
      (fun c => (leaderCover c).filterMap (fun p => if h &&& p.1 = p.2 then some c else none))) = [classify h]

/-- 30_encoding.md sections 1 and 3: decoding the encoding of a well-formed instruction gives it back, at every operand value. -/
def Obligations.DecodeOfEncodeIsTheInstruction : Prop :=
  ∀ i : Instr, i.wf = true → decode (encode i) = .ok i

/-- 30_encoding.md sections 1 and 3: each encoded word has one meaning; encoding what it decodes to gives the word back, and what it
decodes to is well-formed. -/
def Obligations.EncodeOfDecodeIsTheWord : Prop :=
  ∀ (w : Encoded) (i : Instr), decode w = .ok i → encode i = w ∧ i.wf = true

/-- 30_encoding.md sections 1 and 3: a few words written out from the tables. -/
def Obligations.WordsOfTheTablesDecode : Prop :=
  decodeFront [0x88, 0x01, 0x02, 0xAA, 0xBB, 0xF0] = .ok .x88 ∧
  decodeFront [0x66, 0x53, 0x43, 0x52, 0x5F, 0x05] = .ok .x66 ∧
  decodeFront [0x77, 0x02, 0x03, 0x10, 0x20, 0xAC] = .ok .x77 ∧
  decodeFront [0xC8] = .ok (.xuds 0xC8) ∧
  decodeFront [0x7F] = .ok (.xnoise 0x7F) ∧
  decodeOp 0x1 (.bytes [0x88]) = .ok (.push [0x88]) ∧
  decodeCmd 0x5 (.frame 0x28 0xF1 0x3E [0x01]) = .ok (.build 0x28 0xF1 0x3E [0x01]) ∧
  decodeCmd 0xB (.raw 0xC350) = .ok (.interp .volt 0xC350) ∧
  decodeCmd 0xE (.raw 0x0080) = .ok (.press 0x0080) ∧
  decode .pin = .ok .rst

/-! ## The step -/

/-- 20_memory.md sections 3, 5 and 6, 30_encoding.md section 3, 44_boundary_collaborators.md section 3, 60_exceptions.md section 2: a
step runs the decoded instruction. A CLR, an RST or a command that stands first is taken at once, whatever BUF holds. A step on BUF that can
make progress is the one the leader selects, taken where only RX acts next or the surroundings leave the block alone. Else RX is taken. The
model's choices, none of them the spec's words: the list of the surroundings' actions with its consumer's word (assumption log 4) and its
idle (log 5), the overtaking of a blocked RX (log 6), a whole PUSH as one step beside the one-byte action of RX (log 8), and a step that
leaves the state where nothing can be done (log 16). -/
def Obligations.StepRunsTheDecodedInstruction : Prop :=
  (∀ (s : State) (q : List Transaction),
    (s.input = .clr :: q → step s = exec .clr { s with input := q }) ∧
    (s.input = .rst :: q → step s = exec .rst { s with input := q }) ∧
    (∀ code operands i, s.input = .cmd code operands :: q → decodeCmd code operands = .ok i →
      step s = exec i { s with input := q }) ∧
    (∀ n, s.input = .evAccept n :: q → step s = .next { s with input := q, evAccept := n })) ∧
  (∀ (s : State) (i : Instr) (e : Event) (k : Nat), fdStep s.buf = .progress e k → evAccepts s = true →
    decodeFront s.buf = .ok i →
    (s.input = [] → step s = exec i s) ∧
    (∀ q chunk, s.input = .push chunk :: q → step s = exec i s) ∧
    (∀ q b, s.input = .rx b :: q → step s = exec i s) ∧
    (∀ q, s.input = .idle :: q → step s = exec i { s with input := q })) ∧
  (∀ s : State, (quiescent s.buf = true ∨ evAccepts s = false) →
    (∀ q chunk, s.input = .push chunk :: q → rxOpen s = true →
      step s = exec (.push chunk) { s with input := q }) ∧
    (∀ q b, s.input = .rx b :: q → rxOpen s = true → CapacityOk s →
      step s = .next { s with input := q, buf := s.buf ++ [b], rxcnt := s.rxcnt + 1 }) ∧
    (∀ q, s.input = .idle :: q → step s = .next { s with input := q }) ∧
    (s.input = [] → step s = .next s) ∧
    (rxOpen s = false → (∀ t ∈ s.input, t.onRx = true) → step s = .next s) ∧
    (∀ blocked t q, rxOpen s = false → (∀ u ∈ blocked, u.onRx = true) → t.onRx = false →
      s.input = blocked ++ t :: q → step s = step { s with input := t :: (blocked ++ q) }))

/-- 30_encoding.md section 3, 60_exceptions.md section 1 (decision D17): RESERVED0 has no meaning, and on every state a step that takes code
0x0, 0x1 or 0x2 from port CMD is refused, whatever operands stand beside the code. -/
def Obligations.ReservedCodesAreRefused : Prop :=
  (∀ s : State, exec .reserved0 s = .refused (.reservedCode 0x0)) ∧
  (∀ (s : State) (code : OpCode) (operands : Operands) (q : List Transaction), code.toNat ≤ 2 →
    s.input = .cmd code operands :: q → step s = .refused (.reservedCode code))

/-- 60_exceptions.md section 1, "Refusals of the model" (decisions D12, D17, D18), with the excluded instance of decision D3 and the
assumption on port CMD of 44_boundary_collaborators.md section 3 (operands of another operation are assumption log 15): a step is refused in
these situations and in no other, a CAL operation only for its own table and CSUM, VERIFY and BUILD only for their own operand, so no byte
pushed, no CLR, no RST and no extraction step is ever refused on an instance with `BUF_CAP >= 259`. -/
def Obligations.StepRefusesOnlyTheSpecsSituations : Prop :=
  ∀ (s : State) (r : Refusal), step s = .refused r →
    (∃ t q, takeTransaction (rxOpen s) s.input = some (t, q) ∧ t.onRx = true ∧ ¬ CapacityOk s ∧ r = .bufferTooSmall) ∨
    (∃ code operands q, takeTransaction (rxOpen s) s.input = some (.cmd code operands, q) ∧
      ((code.toNat ≤ 2 ∧ r = .reservedCode code) ∨
       (decodeCmd code operands = .error (.wrongOperands code) ∧ r = .wrongOperands code) ∨
       (∃ t raw, (decodeCmd code operands = .ok (.interp t raw) ∨
            (t = .tempA ∧ decodeCmd code operands = .ok (.tempa raw)) ∨
            (t = .tempB ∧ decodeCmd code operands = .ok (.tempb raw)) ∨
            (t = .press ∧ decodeCmd code operands = .ok (.press raw)) ∨
            (t = .volt ∧ decodeCmd code operands = .ok (.volt raw))) ∧
          tableWf s.cfg (tab s.cfg t) = false ∧ r = .malformedTable t) ∨
       (∃ bytes, (decodeCmd code operands = .ok (.csum bytes) ∨ decodeCmd code operands = .ok (.verify bytes)) ∧
          fits s.cfg.csumMaxLen bytes.length = false ∧ r = .operandTooLong) ∨
       (∃ dst src sid data, decodeCmd code operands = .ok (.build dst src sid data) ∧
          fits s.cfg.buildMaxData data.length = false ∧ r = .operandTooLong)))

/-! ## The extraction steps -/

/-- 42_frame_decoder.md section 2, X88 (a wrong checksum emits the record with `checksum_ok = 0`: decision D7). -/
def Obligations.TelemetryStepConsumesTheCandidate : Prop :=
  ∀ (s : State) (screen c : Byte) (payload tail : List Byte), payload.length ≤ 255 →
    s.buf = t88Body screen payload ++ [c] ++ tail → evAccepts s = true →
    exec .x88 s = .next { s with
      buf := tail
      pos := s.pos + (payload.length + 4)
      out := s.out ++ [.telemetry88 screen payload (c == sum8 (t88Body screen payload))
        (t88Body screen payload ++ [c])]
      evAccept := s.evAccept.map (· - 1) }

/-- 42_frame_decoder.md section 2, X66: six bytes with the literal are one screen request; six bytes with another literal cost one byte
(the literal is compared only when six bytes are present: decision D4). -/
def Obligations.ScreenRequestStepMatchesTheLiteral : Prop :=
  (∀ (s : State) (screen : Byte) (tail : List Byte),
    s.buf = [0x66, 0x53, 0x43, 0x52, 0x5F, screen] ++ tail → evAccepts s = true →
    exec .x66 s = .next { s with
      buf := tail
      pos := s.pos + 6
      out := s.out ++ [.screenRequest66 screen [0x66, 0x53, 0x43, 0x52, 0x5F, screen]]
      evAccept := s.evAccept.map (· - 1) }) ∧
  (∀ (s : State) (a b c d e : Byte) (tail : List Byte),
    s.buf = [0x66, a, b, c, d, e] ++ tail → [a, b, c, d] ≠ [0x53, 0x43, 0x52, 0x5F] → evAccepts s = true →
    exec .x66 s = .next { s with
      buf := [a, b, c, d, e] ++ tail
      pos := s.pos + 1
      out := s.out ++ [.desync 0x66]
      evAccept := s.evAccept.map (· - 1) })

/-- 42_frame_decoder.md section 2, X77: a candidate is consumed whole (decision D7); a zero length field costs one byte (decision D5). -/
def Obligations.ConfigStepConsumesTheCandidate : Prop :=
  (∀ (s : State) (package c : Byte) (payload tail : List Byte), payload.length ≤ 254 →
    s.buf = c77Body package payload ++ [c] ++ tail → evAccepts s = true →
    exec .x77 s = .next { s with
      buf := tail
      pos := s.pos + (payload.length + 4)
      out := s.out ++ [.config77 package payload (c == sum8 (c77Body package payload))
        (c77Body package payload ++ [c])]
      evAccept := s.evAccept.map (· - 1) }) ∧
  (∀ (s : State) (package : Byte) (tail : List Byte), s.buf = [0x77, package, 0x00] ++ tail → evAccepts s = true →
    exec .x77 s = .next { s with
      buf := [package, 0x00] ++ tail
      pos := s.pos + 1
      out := s.out ++ [.desync 0x77]
      evAccept := s.evAccept.map (· - 1) })

/-- 42_frame_decoder.md section 2, XUDS: the low six bits of the header say how many bytes follow `src` before the checksum; the first of
them is `sid`, which is absent when there is none, and bit 6 of the header is read by nothing (decisions D6, D7). -/
def Obligations.UdsStepConsumesTheCandidate : Prop :=
  ∀ (s : State) (header dst src c : Byte) (sid : Option Byte) (data tail : List Byte),
    128 ≤ header.toNat → header ≠ 0x88 → (sid = none → data = []) →
    header.toNat % 64 = (sid.toList ++ data).length →
    s.buf = [header, dst, src] ++ sid.toList ++ data ++ [c] ++ tail → evAccepts s = true →
    exec (.xuds header) s = .next { s with
      buf := tail
      pos := s.pos + (header.toNat % 64 + 4)
      out := s.out ++ [.udsFrame dst src sid data (c == sum8 ([header, dst, src] ++ sid.toList ++ data))
        ([header, dst, src] ++ sid.toList ++ data ++ [c])]
      evAccept := s.evAccept.map (· - 1) }

/-- 42_frame_decoder.md section 2, XNOISE: the step on a NOISE leader, and the run of m noise bytes that gives m events. The fault code 1 is
decision D8; that EV accepts is decision D21, and always does, with `BUF_CAP >= 259`, are premises of 44_boundary_collaborators.md section 3
(decisions D3, D33). -/
def Obligations.NoiseStepDropsExactlyOneByte : Prop :=
  (∀ (s : State) (g : Byte) (tail : List Byte), g.toNat < 128 → g ≠ 0x66 → g ≠ 0x77 → s.buf = [g] ++ tail →
    evAccepts s = true →
    exec (.xnoise g) s = .next { s with
      buf := tail
      pos := s.pos + 1
      out := s.out ++ [.desync g]
      evAccept := s.evAccept.map (· - 1) } ∧
    (Event.desync g).raw = [g] ∧ (Event.desync g).fault = 1) ∧
  (∀ (s : State) (gs : List Byte), (∀ g ∈ gs, g.toNat < 128 ∧ g ≠ 0x66 ∧ g ≠ 0x77) → s.buf = [] → EvAlways s →
    CapacityOk s →
    exec (.push gs) s = .next { s with
      rxcnt := s.rxcnt + gs.length
      pos := s.pos + gs.length
      out := s.out ++ gs.map .desync })

/-- 42_frame_decoder.md section 4: the decoder waits under exactly the listed conditions, and an extraction step that waits writes nothing
(that nothing ever ends a wait but bytes, CLR or RST is decision D19; the six bytes of S66 are decision D4, the zero length field
decision D5). -/
def Obligations.DecoderWaitsExactlyUnderTheListedConditions : Prop :=
  (∀ B : List Byte, fdStep B = .wait ↔ WaitCondition B) ∧
  (∀ (s : State) (i : Instr), decodeFront s.buf = .ok i → WaitCondition s.buf → exec i s = .next s)

/-- 20_memory.md section 6 (decision D21): when EV cannot accept a record no extraction step is taken and nothing changes. -/
def Obligations.HeldExtractionStepChangesNothing : Prop :=
  ∀ (s : State) (i : Instr), decodeFront s.buf = .ok i → evAccepts s = false → exec i s = .next s

/-- 30_encoding.md section 1, the checksum byte, with section 3, the event record: that `raw` is the bytes consumed, and that the records
of kinds 0 and 2 alone have no flag, is the record's layout (the kind numbers are decision D8). -/
def Obligations.ChecksumFlagIsTheSumTestOfTheCandidate : Prop :=
  ∀ (B : List Byte) (e : Event) (k : Nat), fdStep B = .progress e k →
    (∀ ok, e.checksumOk? = some ok →
      e.raw = B.take k ∧ (ok = true ↔ B[k - 1]? = some (sum8 (B.take (k - 1))))) ∧
    (e.checksumOk? = none ↔ e.kind = 0 ∨ e.kind = 2)

/-- 60_exceptions.md section 1: `FramingDesync` has exactly three causes (a zero length field is decision D5) and costs one byte;
`ChecksumMismatch` is a whole candidate whose last byte is not its checksum and costs all of it (decision D7); every other step is a
validated frame. The codes 1 and 2 are decision D8. -/
def Obligations.FaultsHaveTheirCausesAndTheirCost : Prop :=
  ∀ (B : List Byte) (e : Event) (k : Nat), fdStep B = .progress e k →
    (e.fault = 1 → k = 1 ∧ ∃ h, B.head? = some h ∧ e = .desync h ∧
      (classify h = .noise ∨ (h = 0x66 ∧ 6 ≤ B.length ∧ (B.drop 1).take 4 ≠ [0x53, 0x43, 0x52, 0x5F]) ∨
        (h = 0x77 ∧ B[2]? = some 0x00))) ∧
    (e.fault = 2 → need B = some k ∧ e.raw = B.take k ∧ e.kind ≠ 0 ∧ e.kind ≠ 2 ∧
      B[k - 1]? ≠ some (sum8 (B.take (k - 1)))) ∧
    (e.fault = 0 → need B = some k ∧ e.raw = B.take k ∧ e.validated = true) ∧
    (e.fault = 0 ∨ e.fault = 1 ∨ e.fault = 2)

/-- 42_frame_decoder.md section 5, prefix determinism (a), (b), (c). -/
def Obligations.DecisionsDoNotDependOnLaterBytes : Prop :=
  (∀ (B : List Byte) (e : Event) (k : Nat), fdStep B = .progress e k →
    ∃ n, need B = some n ∧ k ≤ n ∧ n ≤ B.length ∧ ∀ C, fdStep (B.take n ++ C) = .progress e k) ∧
  (∀ B C : List Byte, fdStep (B ++ C) = .wait → fdStep B = .wait ∨ B = []) ∧
  (∀ B : List Byte, fdStep B = .wait →
    ∃ n, need B = some n ∧ B.length < n ∧
      ∀ C : List Byte, maxFrame ≤ C.length → ∃ e k, fdStep (B ++ C) = .progress e k)

/-- 42_frame_decoder.md section 5, bound on pending bytes, with its bound per class; 30_encoding.md section 1, the largest NEED. -/
def Obligations.QuiescentBufferIsBounded : Prop :=
  ∀ (h : Byte) (t : List Byte), quiescent (h :: t) = true →
    (∃ n, need (h :: t) = some n ∧ (h :: t).length + 1 ≤ n ∧ n ≤ 259) ∧
    (classify h = .t88 → (h :: t).length ≤ 258) ∧ (classify h = .c77 → (h :: t).length ≤ 257) ∧
    (classify h = .uds → (h :: t).length ≤ 66) ∧ (classify h = .s66 → (h :: t).length ≤ 5) ∧ classify h ≠ .noise

/-! ## PUSH -/

/-- Rule R133, and 20_memory.md section 6 where EV does not always accept (decision D21): Drain takes extraction steps one after the
other, at most one for each byte of BUF, and stops only when BUF is quiescent or EV cannot accept. -/
def Obligations.DrainTakesStepsUntilQuiescent : Prop :=
  ∀ s : State, ∃ es : List Event, Extraction s es (drain s) ∧ es.length ≤ s.buf.length ∧
    (drain s).out = s.out ++ es ∧
    (quiescent (drain s).buf = true ∨ evAccepts (drain s) = false) ∧
    (EvAlways s → (drain s).buf = [] ∨ fdStep (drain s).buf = .wait)

/-- 42_frame_decoder.md section 5, conservation, for every state with `BUF_CAP >= 259`: PUSH completes; the bytes of its events, what is
then pending, and what RX could not take are the bytes pending before and the chunk, in order; bytes are left on the port only where BUF is
full, and BUF is left not quiescent only where EV cannot accept (decision D21). RXCNT counts the bytes taken, and nothing else but POS and
what EV accepts is written. Where EV always accepts nothing is left on the port and BUF is quiescent with at most 258 bytes. -/
def Obligations.PushCompletesAndConservesEveryByte : Prop :=
  ∀ (s : State) (chunk : List Byte), CapacityOk s →
    ∃ (t : State) (es : List Event) (left : List Byte), exec (.push chunk) s = .next t ∧
      t.out = s.out ++ es ∧ rawBytes es ++ t.buf ++ left = s.buf ++ chunk ∧
      left.length ≤ chunk.length ∧ t.rxcnt = s.rxcnt + (chunk.length - left.length) ∧
      t.pos = s.pos + (rawBytes es).length ∧
      t.input = (if left = [] then s.input else .push left :: s.input) ∧ t.cfg = s.cfg ∧ t.res = s.res ∧
      t.evAccept = s.evAccept.map (· - es.length) ∧
      (left ≠ [] → rxOpen t = false) ∧ (quiescent t.buf = true ∨ evAccepts t = false) ∧
      (EvAlways s → left = [] ∧ quiescent t.buf = true ∧ t.buf.length ≤ 258)

/-- 42_frame_decoder.md section 1: the byte-serial form that the meaning of PUSH uses and the chunk form (append everything, then drain)
give the same state from every buffer (decision D28), under the premises EvAccepts and CapacityOk of 44_boundary_collaborators.md section 3.
The meaning of PUSH takes the steps that are still possible before it appends (assumption log 7); without that the two forms differ for an
empty chunk on a BUF that is not quiescent. -/
def Obligations.ByteSerialPushEqualsChunkPush : Prop :=
  ∀ (s : State) (chunk : List Byte), EvAlways s → CapacityOk s →
    exec (.push chunk) s = .next (pushChunk chunk s)

/-- 42_frame_decoder.md section 5, chunk-boundary independence: however a stream is cut into chunks, pushing the chunks one after the
other ends in the state that pushing it at once ends in: same events in the same order, same residue, from every state. -/
def Obligations.ChunkBoundariesAreInvisible : Prop :=
  ∀ (s : State) (c : List Byte) (cs : List (List Byte)), EvAlways s → CapacityOk s →
    runOps ((c :: cs).map .push) s = exec (.push (c :: cs).flatten) s ∧
    ∃ t, exec (.push (c :: cs).flatten) s = .next t

/-- 42_frame_decoder.md section 5, clean extraction: a stream of well-formed frames of any formats is decoded into exactly those frames,
in order, each with `checksum_ok = 1`, with no Desync event and nothing left. -/
def Obligations.WellFormedStreamIsDecodedExactly : Prop :=
  ∀ (s : State) (fs : List WireFrame), (∀ f ∈ fs, f.wf = true) → s.buf = [] → EvAlways s → CapacityOk s →
    exec (.push (fs.flatMap WireFrame.bytes)) s = .next { s with
      rxcnt := s.rxcnt + (fs.flatMap WireFrame.bytes).length
      pos := s.pos + (fs.flatMap WireFrame.bytes).length
      out := s.out ++ fs.map WireFrame.event }

/-- 42_frame_decoder.md section 5, resynchronisation after noise, whatever bytes C follow: noise bytes, or one 0x66 with at least five
bytes behind it, cost one Desync event each, the frame behind them is extracted, and decoding goes on with C. -/
def Obligations.NoiseBeforeAFrameIsDropped : Prop :=
  (∀ (s : State) (gs : List Byte) (f : WireFrame) (C : List Byte), (∀ g ∈ gs, noiseByte g = true) → f.wf = true →
    s.buf = [] → EvAlways s → CapacityOk s →
    exec (.push (gs ++ f.bytes ++ C)) s = exec (.push C) { s with
      rxcnt := s.rxcnt + (gs.length + f.bytes.length)
      pos := s.pos + (gs.length + f.bytes.length)
      out := s.out ++ gs.map .desync ++ [f.event] } ∧
    ∃ t, exec (.push (gs ++ f.bytes ++ C)) s = .next t) ∧
  (∀ (s : State) (f : WireFrame) (C : List Byte), f.wf = true → 5 ≤ (f.bytes ++ C).length →
    s.buf = [] → EvAlways s → CapacityOk s →
    exec (.push ([0x66] ++ f.bytes ++ C)) s = exec (.push C) { s with
      rxcnt := s.rxcnt + (1 + f.bytes.length)
      pos := s.pos + (1 + f.bytes.length)
      out := s.out ++ [.desync 0x66, f.event] } ∧
    ∃ t, exec (.push ([0x66] ++ f.bytes ++ C)) s = .next t)

/-- 42_frame_decoder.md section 5, one corrupted byte: a T88, C77 or UDS frame with one byte changed that is neither the leader nor a
length byte is consumed whole with `checksum_ok = 0`, and what follows it is untouched. -/
def Obligations.OneCorruptedByteCostsTheWholeFrame : Prop :=
  ∀ (f : WireFrame) (i : Nat) (b : Byte) (C : List Byte), f.wf = true → (∀ screen, f ≠ .s66 screen) →
    0 < i → i < f.bytes.length → ((∃ s p, f = .t88 s p) ∨ (∃ k p, f = .c77 k p) → i ≠ 2) → f.bytes[i]? ≠ some b →
    ∃ e, fdStep (f.bytes.set i b ++ C) = .progress e f.bytes.length ∧ e.checksumOk? = some false ∧
      e.raw = f.bytes.set i b

/-! ## The whole machine -/

/-- 10_state.md section 6 with the layouts of 30_encoding.md section 1: every step keeps `RXCNT = POS + |BUF|`, keeps every record of OUT
true to its own bytes with `checksum_ok` their checksum test, and keeps BUF within its capacity. -/
def Obligations.EveryStepKeepsTheInvariant : Prop :=
  ∀ s t : State, Inv s → step s = .next t → Inv t

/-- The invariant holds after reset. -/
def Obligations.ResetMeetsTheInvariant : Prop := Inv State.reset

/-- 10_state.md section 6, I3: where EV always accepts and `BUF_CAP >= 259`, and the surroundings act in whole operations, BUF is quiescent
after every step that began so. -/
def Obligations.EveryStepKeepsTheDecoderAtRest : Prop :=
  ∀ s t : State, AtRest s → step s = .next t → AtRest t ∧ t.buf.length ≤ 258

/-- The reset state is at rest and meets the four premises of a run (44_boundary_collaborators.md section 3). The model's choices in it:
that its tables are well-formed (assumption log 1), that its capacity is unbounded (log 2), and that EV always accepts and no action of the
surroundings waits (log 4). -/
def Obligations.ResetMeetsThePremisesOfARun : Prop :=
  AtRest State.reset ∧ AfterReset State.reset ∧ TablesWellFormed State.reset ∧ CapacityOk State.reset ∧
    EvAlways State.reset

/-- 20_memory.md section 5, ordering of events, with 42_frame_decoder.md section 5, conservation: no instruction but CLR and RST loses a byte
or an event. The new events are behind the old ones, and their bytes with what is then pending are what was pending before and, for PUSH
alone, a beginning of its chunk. -/
def Obligations.NoInstructionButClrAndRstLosesAByte : Prop :=
  ∀ (i : Instr) (s t : State), exec i s = .next t → i ≠ .clr → i ≠ .rst →
    ∃ (es : List Event) (app : List Byte), t.out = s.out ++ es ∧ rawBytes es ++ t.buf = s.buf ++ app ∧
      t.rxcnt = s.rxcnt + app.length ∧ t.pos = s.pos + (rawBytes es).length ∧
      (app ≠ [] → ∃ chunk, i = .push chunk ∧ app <+: chunk)

/-- 10_state.md section 4 and 20_memory.md section 5: no instruction writes a table or a size; no Frame Decoder operation touches RES; a CK or
CAL operation appends its one result to RES and touches nothing else. -/
def Obligations.UnitsTouchOnlyTheirOwnState : Prop :=
  ∀ (i : Instr) (s t : State), exec i s = .next t →
    t.cfg = s.cfg ∧
    ((isCk i = true ∨ isCal i = true) → ∃ r, t = { s with res := s.res ++ [{ op := i, result := r }] }) ∧
    ((i = .clr ∨ i = .rst ∨ (∃ c, i = .push c) ∨ ∃ h, i = decodeLeader h) → t.res = s.res)

/-- 20_memory.md section 3 and 41_calibration_decoder.md section 3: a CK or CAL operation is a function of its operands and of the constant
tables and sizes; two states that agree on these get the same answer, whatever else they hold. -/
def Obligations.PureUnitsReadOnlyOperandsAndTables : Prop :=
  ∀ (i : Instr) (s t u : State) (r : Result), s.cfg = u.cfg → exec i s = .next t →
    t.res = s.res ++ [{ op := i, result := r }] →
    exec i u = .next { u with res := u.res ++ [{ op := i, result := r }] }

/-- 10_state.md section 2, ghost state: no operation's result depends on RXCNT, POS or OUT. Run with the ghost state emptied, every
instruction leaves the same BUF, RES, waiting transactions and EV, and emits the same events. -/
def Obligations.GhostStateIsNeverRead : Prop :=
  ∀ (i : Instr) (s t : State), exec i s = .next t →
    ∃ u : State, exec i { s with rxcnt := 0, pos := 0, out := [] } = .next u ∧
      u.buf = t.buf ∧ u.cfg = t.cfg ∧ u.res = t.res ∧ u.input = t.input ∧ u.evAccept = t.evAccept ∧
      (i ≠ .rst → t.out = s.out ++ u.out)

/-! ## The Checksum Unit -/

/-- 40_checksum_unit.md section 1, CSUM (the empty sequence gives 0: decision D15; the bound CSUM_MAX_LEN: decision D18). -/
def Obligations.CsumIsTheSumModulo256 : Prop :=
  ∀ (s : State) (bytes : List Byte), fits s.cfg.csumMaxLen bytes.length = true →
    ∃ c : Byte, c.toNat = byteSum bytes % 256 ∧
      exec (.csum bytes) s = .next { s with res := s.res ++ [{ op := .csum bytes, result := .byte c }] }

/-- Rule R91. -/
def Obligations.VerifyComparesTheLastByte : Prop :=
  ∀ (s : State) (bytes : List Byte), fits s.cfg.csumMaxLen bytes.length = true →
    ∃ ok : Bool, decodeCmd 0x4 (.bytes bytes) = .ok (.verify bytes) ∧
      exec (.verify bytes) s = .next { s with res := s.res ++ [{ op := .verify bytes, result := .bit ok }] } ∧
      (bytes.length < 2 → ok = false) ∧
      (∀ body c, bytes = body ++ [c] → 1 ≤ body.length → (ok = true ↔ c.toNat = byteSum body % 256))

/-- Rule R92. -/
def Obligations.BuildMakesTheFrame : Prop :=
  ∀ (s : State) (dst src sid : Byte) (data : List Byte), fits s.cfg.buildMaxData data.length = true →
    ∃ header c : Byte, decodeCmd 0x5 (.frame dst src sid data) = .ok (.build dst src sid data) ∧
      header.toNat = 128 + (data.length + 2) % 64 ∧
      header = 0x80 ||| (BitVec.ofNat 8 (data.length + 2) &&& 0x3F) ∧
      c.toNat = byteSum ([header, dst, src, sid] ++ data) % 256 ∧
      ([header, dst, src, sid] ++ data ++ [c]).length = data.length + 5 ∧
      exec (.build dst src sid data) s = .next { s with
        res := s.res ++ [{ op := .build dst src sid data, result := .bytes ([header, dst, src, sid] ++ data ++ [c]) }] }

/-- 40_checksum_unit.md section 1, ACKS and ACKP, for every n in 0..255 (decision D26). -/
def Obligations.AcknowledgementsAreFiveBytes : Prop :=
  ∀ (s : State) (n : Byte),
    exec (.acks n) s = .next { s with
      res := s.res ++ [{ op := .acks n, result := .bytes [0x55, 0x4F, 0x4B, 0x53, n] }] } ∧
    exec (.ackp n) s = .next { s with
      res := s.res ++ [{ op := .ackp n, result := .bytes [0x55, 0x4F, 0x4B, 0x50, n] }] }

/-- 40_checksum_unit.md section 2, the laws of sum8 (b), with its particular form, to (e). -/
def Obligations.SumLaws : Prop :=
  (∀ s t : List Byte, (sum8 (s ++ t)).toNat = ((sum8 s).toNat + (sum8 t).toNat) % 256) ∧
  (∀ (s : List Byte) (b : Byte), (sum8 (s ++ [b])).toNat = ((sum8 s).toNat + b.toNat) % 256) ∧
  (∀ s t : List Byte, s.Perm t → sum8 s = sum8 t) ∧
  (∀ s t : List Byte, sum8 (s ++ [0x00] ++ t) = sum8 (s ++ t)) ∧
  (∀ s : List Byte, (sum8 (s ++ [sum8 s])).toNat = (2 * (sum8 s).toNat) % 256)

/-- 40_checksum_unit.md section 2, round trip: VERIFY holds of every closed sequence of at least two bytes, and of every frame BUILD makes,
run one after the other on any state whose limits admit both. -/
def Obligations.VerifyHoldsOfWhatBuildMakes : Prop :=
  (∀ s : List Byte, 1 ≤ s.length → verifyBit (s ++ [sum8 s]) = true) ∧
  (∀ (s t : State) (dst src sid : Byte) (data f : List Byte), exec (.build dst src sid data) s = .next t →
    t.res = s.res ++ [{ op := .build dst src sid data, result := .bytes f }] →
    fits s.cfg.csumMaxLen f.length = true →
    exec (.verify f) t = .next { t with res := t.res ++ [{ op := .verify f, result := .bit true }] })

/-- 40_checksum_unit.md section 2, what the checksum detects: every change of one byte, the last included; and what it does not: any
reordering of the covered bytes. -/
def Obligations.ChecksumDetectsOneChangedByte : Prop :=
  (∀ (s : List Byte) (i : Nat) (b : Byte), 1 ≤ s.length → i < (s ++ [sum8 s]).length →
    (s ++ [sum8 s])[i]? ≠ some b → verifyBit ((s ++ [sum8 s]).set i b) = false) ∧
  (∀ s t : List Byte, 1 ≤ s.length → s.Perm t → verifyBit (t ++ [sum8 s]) = true)

/-- 70_reset_and_hazards.md section 3: a frame made by BUILD is one byte shorter than the frame the decoder reads under its header (for
`n <= 61`, `n != 6`); for n = 6 it has the Telemetry leader; for every n its low header bits are `(n + 2) mod 64`. -/
def Obligations.BuildAndDecoderDisagreeByOneByte : Prop :=
  ∀ (dst src sid : Byte) (data : List Byte),
    (data.length ≤ 61 → data.length ≠ 6 →
      need (buildFrame dst src sid data) = some ((buildFrame dst src sid data).length + 1) ∧
      fdStep (buildFrame dst src sid data) = .wait ∧
      ∀ (b : Byte) (C : List Byte), ∃ e,
        fdStep (buildFrame dst src sid data ++ [b] ++ C) = .progress e (data.length + 6) ∧
        e.checksumOk? = some (b == sum8 (buildFrame dst src sid data))) ∧
    (data.length = 6 → decodeFront (buildFrame dst src sid data) = .ok .x88) ∧
    (∃ header, (buildFrame dst src sid data).head? = some header ∧ header.toNat % 64 = (data.length + 2) % 64)

/-! ## The Calibration Decoder -/

/-- 41_calibration_decoder.md sections 1 and 2, and 30_encoding.md section 5: on a well-formed table every CAL operation delivers the value
the rules give, one value for INTERP and for the named conversion of the table, PRESS in tenths of a bar (decision D14). The rounding of
ties and of 16-bit tables is decisions D9 and D10. -/
def Obligations.CalOperationsDeliverTheInterpolatedValue : Prop :=
  ∀ (s : State) (t : TableId) (raw : Raw), tableWf s.cfg (tab s.cfg t) = true →
    ∃ y : Int, IsInterp raw.toNat (tab s.cfg t).points y ∧
      (∀ y', IsInterp raw.toNat (tab s.cfg t).points y' → y' = y) ∧
      exec (.interp t raw) s = .next { s with res := s.res ++ [{ op := .interp t raw, result := .phys y }] } ∧
      (t = .tempA → exec (.tempa raw) s = .next { s with res := s.res ++ [{ op := .tempa raw, result := .phys y }] }) ∧
      (t = .tempB → exec (.tempb raw) s = .next { s with res := s.res ++ [{ op := .tempb raw, result := .phys y }] }) ∧
      (t = .press → exec (.press raw) s =
        .next { s with res := s.res ++ [{ op := .press raw, result := .tenthsOfBar y }] }) ∧
      (t = .volt → exec (.volt raw) s = .next { s with res := s.res ++ [{ op := .volt raw, result := .phys y }] })

/-- 60_exceptions.md section 1, refusal (a) (decision D12): a CAL operation is refused exactly on a table that is not well-formed. -/
def Obligations.CalRefusesExactlyMalformedTables : Prop :=
  ∀ (s : State) (t : TableId) (raw : Raw),
    (exec (.interp t raw) s = .refused (.malformedTable t) ↔ tableWf s.cfg (tab s.cfg t) = false) ∧
    (exec (.tempa raw) s = .refused (.malformedTable .tempA) ↔ tableWf s.cfg s.cfg.tempA = false) ∧
    (exec (.tempb raw) s = .refused (.malformedTable .tempB) ↔ tableWf s.cfg s.cfg.tempB = false) ∧
    (exec (.press raw) s = .refused (.malformedTable .press) ↔ tableWf s.cfg s.cfg.press = false) ∧
    (exec (.volt raw) s = .refused (.malformedTable .volt) ↔ tableWf s.cfg s.cfg.volt = false)

/-- 10_state.md section 4: what the model takes as a well-formed table (decisions D11, D12). The conjunct `PHYS_W >= 2` is the model's
deduction (assumption log 19) and not a condition of that section. -/
def Obligations.WellFormedTablesAreTheSpecs : Prop :=
  ∀ (cfg : Config) (t : Table), tableWf cfg t = true ↔
    2 ≤ cfg.physW ∧ 1 ≤ t.points.length ∧ (∀ d, cfg.lutDepth = some d → t.points.length ≤ d) ∧
    t.points.Pairwise (fun p q => p.raw < q.raw) ∧
    ∀ p ∈ t.points, p.raw < 2 ^ rawBits t.rawW ∧ -(2 ^ (cfg.physW - 1) : Int) ≤ p.phys ∧
      p.phys < (2 ^ (cfg.physW - 1) : Int)

/-- 41_calibration_decoder.md section 3, laws (b), (c), (f), and the two's-complement form on the port (decision D11): a breakpoint has its own
value; every result lies between the values of two breakpoints of the table, between those of the bracket where there is one, and within
one half of the exact value there; it is carried whole by a word of PHYS_W bits. -/
def Obligations.InterpolationStaysBetweenItsBreakpoints : Prop :=
  ∀ (cfg : Config) (t : Table), tableWf cfg t = true →
    (∀ p ∈ t.points, interp p.raw t.points = some p.phys) ∧
    (∀ (r y : Int), interp r t.points = some y →
      (∃ lo ∈ t.points, ∃ hi ∈ t.points, lo.phys ≤ y ∧ y ≤ hi.phys) ∧
      (∀ p q, [p, q] <:+: t.points → (p.raw : Int) ≤ r → r < q.raw →
        min p.phys q.phys ≤ y ∧ y ≤ max p.phys q.phys ∧
        2 * |y * bracketD p q - bracketN r p q| ≤ bracketD p q) ∧
      (physOnPort cfg.physW y).toInt = y)

/-- 41_calibration_decoder.md section 3, law (d): interpolation in a table whose values do not decrease does not decrease; in one whose values
do not increase it does not increase. -/
def Obligations.InterpolationIsMonotonic : Prop :=
  ∀ (points : List Breakpoint) (r r' y y' : Int), points.Pairwise (fun p q => p.raw < q.raw) → r ≤ r' →
    interp r points = some y → interp r' points = some y' →
    (points.Pairwise (fun p q => p.phys ≤ q.phys) → y ≤ y') ∧
    (points.Pairwise (fun p q => q.phys ≤ p.phys) → y' ≤ y)

/-- 41_calibration_decoder.md section 3, arithmetic widths, for the numbers the meaning of a CAL operation computes with: on a well-formed
table the divisor is at least 1 and fits RAW_W bits, the dividend of the rounding fits a signed accumulator of PHYS_W + RAW_W + 4 bits, and
the division is by a positive number and floors. -/
def Obligations.InterpolationFitsItsAccumulator : Prop :=
  ∀ (cfg : Config) (t : Table) (p q : Breakpoint) (r : Int), tableWf cfg t = true → [p, q] <:+: t.points →
    (p.raw : Int) ≤ r → r < q.raw →
    1 ≤ (interpolateBetween r p q).den ∧ (interpolateBetween r p q).den ≤ 2 ^ rawBits t.rawW - 1 ∧
    |(interpolateBetween r p q).num| < 2 ^ (cfg.physW + rawBits t.rawW + 1) ∧
    |2 * (interpolateBetween r p q).num + (interpolateBetween r p q).den| < 2 ^ (cfg.physW + rawBits t.rawW + 3) ∧
    roundHalfUp (interpolateBetween r p q) * (2 * (interpolateBetween r p q).den) ≤
      2 * (interpolateBetween r p q).num + (interpolateBetween r p q).den ∧
    2 * (interpolateBetween r p q).num + (interpolateBetween r p q).den <
      (roundHalfUp (interpolateBetween r p q) + 1) * (2 * (interpolateBetween r p q).den)

/-! ## Runs, and what the surroundings may do -/

/-- 44_boundary_collaborators.md section 3, a run: from every state, under the premises EvAccepts and CapacityOk, TablesWellFormed where a CAL
operation is in it, and operands within the limits, a run comes to its end; the Frame Decoder is then quiescent with at most 258 bytes, and
the results observed are those of its CK and CAL operations, one for each, in order (decisions D29, D33). -/
def Obligations.ARunEndsQuiescentWithEveryCommandAnswered : Prop :=
  ∀ (s : State) (ops : List Instr), RunOps ops → EvAlways s → CapacityOk s →
    (∀ i ∈ ops, isCal i = true → TablesWellFormed s) → (∀ i ∈ ops, withinLimits s.cfg i = true) →
    ∃ t, run ops s = .next t ∧ (t.buf = [] ∨ fdStep t.buf = .wait) ∧ t.buf.length ≤ 258 ∧
      (observe s t).results.map ResRecord.op = ops.filter (fun i => isCk i || isCal i)

/-- 44_boundary_collaborators.md section 3: a run begins with RST, so what is observed of it depends on its operations and on the constant
configuration alone, and on nothing that was received, emitted or delivered before it (premise EvAccepts, decision D33). -/
def Obligations.ARunShowsNothingFromBeforeIt : Prop :=
  ∀ (s u t : State) (ops : List Instr), RunOps ops → s.cfg = u.cfg → EvAlways s → EvAlways u →
    run ops s = .next t → ∃ v, run ops u = .next v ∧ observe u v = observe s t

/-- 44_boundary_collaborators.md section 3, the liberties of ports CTL and CMD, and 60_exceptions.md section 2: CLR, RST and every command can
land after any number of extraction steps, and between the append of a byte and the first extraction step on it, where CLR wins over what
the pending bytes would have become: no event is emitted for them (decision D22). Leaving the block alone for an action is the model's
idle (assumption log 5); the one-byte action of RX is log 8. -/
def Obligations.ControlLandsBetweenAnyTwoActions : Prop :=
  (∀ (s t : State) (es : List Event) (q : List Transaction), Extraction s es t →
    stepN (es.length + 1) { s with input := List.replicate es.length .idle ++ .clr :: q } =
      .next { t with input := q, buf := [], pos := t.pos + t.buf.length } ∧
    stepN (es.length + 1) { s with input := List.replicate es.length .idle ++ .rst :: q } =
      .next { t with input := q, buf := [], rxcnt := 0, pos := 0, out := [] } ∧
    (∀ code operands i u, decodeCmd code operands = .ok i → exec i { t with input := q } = .next u →
      stepN (es.length + 1) { s with input := List.replicate es.length .idle ++ .cmd code operands :: q } = .next u)) ∧
  (∀ (s : State) (b : Byte) (q : List Transaction), (quiescent s.buf = true ∨ evAccepts s = false) → rxOpen s = true →
    CapacityOk s →
    stepN 2 { s with input := .rx b :: .clr :: q } =
      .next { s with input := q, buf := [], rxcnt := s.rxcnt + 1, pos := s.pos + (s.buf.length + 1) })

/-- 42_frame_decoder.md section 1, the byte-serial form, with 20_memory.md section 3: a PUSH is its atomic actions. Where EV always accepts, the
bytes of the chunk handed over on RX one by one, with nothing else offered, lead by single steps to the state that PUSH of the chunk
answers, and there the machine rests. That a step answers the same state there is assumption log 16; the one-byte action is log 8. -/
def Obligations.PushIsItsAtomicActions : Prop :=
  ∀ (s t : State) (chunk : List Byte), EvAlways s → CapacityOk s → s.input = [] → exec (.push chunk) s = .next t →
    ∃ n, stepN n { s with input := chunk.map .rx } = .next t ∧ step t = .next t

/-- 20_memory.md section 6, port RX and the capacity of BUF: where EV always accepts and `BUF_CAP >= 259`, BUF never holds more than 259 bytes
at any point between two actions, whatever the surroundings do, and whenever no extraction step is possible RX can take a byte. -/
def Obligations.EveryStepKeepsRxFlowing : Prop :=
  ∀ s t : State, Flowing s → step s = .next t → Flowing t ∧ (quiescent t.buf = true → rxOpen t = true)

/-- The reset state meets the premises of the statement above; that EV always accepts, that nothing waits and that the capacity is unbounded
are the model's choices (assumption log 2, 4). -/
def Obligations.ResetIsFlowing : Prop := Flowing State.reset ∧ rxOpen State.reset = true
end

