-- ==== Sys2Proof/Laws/State.lean ====
section
/-! SUPPORT. One lemma per field per named update of State, each true by rfl, so that no later proof unfolds a record update. -/

namespace Sys2Proof.Machine

variable {s : State}

@[simp] theorem bufAppend_buf {b : Byte} : (bufAppend b s).buf = s.buf ++ [b] := rfl
@[simp] theorem bufAppend_rxcnt {b : Byte} : (bufAppend b s).rxcnt = s.rxcnt + 1 := rfl
@[simp] theorem bufAppend_pos {b : Byte} : (bufAppend b s).pos = s.pos := rfl
@[simp] theorem bufAppend_out {b : Byte} : (bufAppend b s).out = s.out := rfl
@[simp] theorem bufAppend_cfg {b : Byte} : (bufAppend b s).cfg = s.cfg := rfl
@[simp] theorem bufAppend_res {b : Byte} : (bufAppend b s).res = s.res := rfl
@[simp] theorem bufAppend_input {b : Byte} : (bufAppend b s).input = s.input := rfl
@[simp] theorem bufAppend_evAccept {b : Byte} : (bufAppend b s).evAccept = s.evAccept := rfl

@[simp] theorem bufConsume_buf {k : Nat} : (bufConsume k s).buf = s.buf.drop k := rfl
@[simp] theorem bufConsume_rxcnt {k : Nat} : (bufConsume k s).rxcnt = s.rxcnt := rfl
@[simp] theorem bufConsume_pos {k : Nat} : (bufConsume k s).pos = s.pos + k := rfl
@[simp] theorem bufConsume_out {k : Nat} : (bufConsume k s).out = s.out := rfl
@[simp] theorem bufConsume_cfg {k : Nat} : (bufConsume k s).cfg = s.cfg := rfl
@[simp] theorem bufConsume_res {k : Nat} : (bufConsume k s).res = s.res := rfl
@[simp] theorem bufConsume_input {k : Nat} : (bufConsume k s).input = s.input := rfl
@[simp] theorem bufConsume_evAccept {k : Nat} : (bufConsume k s).evAccept = s.evAccept := rfl

@[simp] theorem emit_buf {e : Event} : (emit e s).buf = s.buf := rfl
@[simp] theorem emit_rxcnt {e : Event} : (emit e s).rxcnt = s.rxcnt := rfl
@[simp] theorem emit_pos {e : Event} : (emit e s).pos = s.pos := rfl
@[simp] theorem emit_out {e : Event} : (emit e s).out = s.out ++ [e] := rfl
@[simp] theorem emit_cfg {e : Event} : (emit e s).cfg = s.cfg := rfl
@[simp] theorem emit_res {e : Event} : (emit e s).res = s.res := rfl
@[simp] theorem emit_input {e : Event} : (emit e s).input = s.input := rfl
@[simp] theorem emit_evAccept {e : Event} : (emit e s).evAccept = s.evAccept.map (· - 1) := rfl

@[simp] theorem takeStep_buf {e : Event} {k : Nat} : (takeStep e k s).buf = s.buf.drop k := rfl
@[simp] theorem takeStep_rxcnt {e : Event} {k : Nat} : (takeStep e k s).rxcnt = s.rxcnt := rfl
@[simp] theorem takeStep_pos {e : Event} {k : Nat} : (takeStep e k s).pos = s.pos + k := rfl
@[simp] theorem takeStep_out {e : Event} {k : Nat} : (takeStep e k s).out = s.out ++ [e] := rfl
@[simp] theorem takeStep_cfg {e : Event} {k : Nat} : (takeStep e k s).cfg = s.cfg := rfl
@[simp] theorem takeStep_res {e : Event} {k : Nat} : (takeStep e k s).res = s.res := rfl
@[simp] theorem takeStep_input {e : Event} {k : Nat} : (takeStep e k s).input = s.input := rfl
@[simp] theorem takeStep_evAccept {e : Event} {k : Nat} : (takeStep e k s).evAccept = s.evAccept.map (· - 1) := rfl

@[simp] theorem clearBuf_buf : (clearBuf s).buf = [] := rfl
@[simp] theorem clearBuf_rxcnt : (clearBuf s).rxcnt = s.rxcnt := rfl
@[simp] theorem clearBuf_pos : (clearBuf s).pos = s.pos + s.buf.length := rfl
@[simp] theorem clearBuf_out : (clearBuf s).out = s.out := rfl
@[simp] theorem clearBuf_cfg : (clearBuf s).cfg = s.cfg := rfl
@[simp] theorem clearBuf_res : (clearBuf s).res = s.res := rfl
@[simp] theorem clearBuf_input : (clearBuf s).input = s.input := rfl
@[simp] theorem clearBuf_evAccept : (clearBuf s).evAccept = s.evAccept := rfl

@[simp] theorem resetFd_buf : (resetFd s).buf = [] := rfl
@[simp] theorem resetFd_rxcnt : (resetFd s).rxcnt = 0 := rfl
@[simp] theorem resetFd_pos : (resetFd s).pos = 0 := rfl
@[simp] theorem resetFd_out : (resetFd s).out = [] := rfl
@[simp] theorem resetFd_cfg : (resetFd s).cfg = s.cfg := rfl
@[simp] theorem resetFd_res : (resetFd s).res = s.res := rfl
@[simp] theorem resetFd_input : (resetFd s).input = s.input := rfl
@[simp] theorem resetFd_evAccept : (resetFd s).evAccept = s.evAccept := rfl

@[simp] theorem deliver_buf {i : Instr} {r : Result} : (deliver i r s).buf = s.buf := rfl
@[simp] theorem deliver_rxcnt {i : Instr} {r : Result} : (deliver i r s).rxcnt = s.rxcnt := rfl
@[simp] theorem deliver_pos {i : Instr} {r : Result} : (deliver i r s).pos = s.pos := rfl
@[simp] theorem deliver_out {i : Instr} {r : Result} : (deliver i r s).out = s.out := rfl
@[simp] theorem deliver_cfg {i : Instr} {r : Result} : (deliver i r s).cfg = s.cfg := rfl
@[simp] theorem deliver_res {i : Instr} {r : Result} : (deliver i r s).res = s.res ++ [{ op := i, result := r }] := rfl
@[simp] theorem deliver_input {i : Instr} {r : Result} : (deliver i r s).input = s.input := rfl
@[simp] theorem deliver_evAccept {i : Instr} {r : Result} : (deliver i r s).evAccept = s.evAccept := rfl

@[simp] theorem setInput_buf {q : List Transaction} : (setInput q s).buf = s.buf := rfl
@[simp] theorem setInput_rxcnt {q : List Transaction} : (setInput q s).rxcnt = s.rxcnt := rfl
@[simp] theorem setInput_pos {q : List Transaction} : (setInput q s).pos = s.pos := rfl
@[simp] theorem setInput_out {q : List Transaction} : (setInput q s).out = s.out := rfl
@[simp] theorem setInput_cfg {q : List Transaction} : (setInput q s).cfg = s.cfg := rfl
@[simp] theorem setInput_res {q : List Transaction} : (setInput q s).res = s.res := rfl
@[simp] theorem setInput_input {q : List Transaction} : (setInput q s).input = q := rfl
@[simp] theorem setInput_evAccept {q : List Transaction} : (setInput q s).evAccept = s.evAccept := rfl

@[simp] theorem setEvAccept_buf {n : Option Nat} : (setEvAccept n s).buf = s.buf := rfl
@[simp] theorem setEvAccept_rxcnt {n : Option Nat} : (setEvAccept n s).rxcnt = s.rxcnt := rfl
@[simp] theorem setEvAccept_pos {n : Option Nat} : (setEvAccept n s).pos = s.pos := rfl
@[simp] theorem setEvAccept_out {n : Option Nat} : (setEvAccept n s).out = s.out := rfl
@[simp] theorem setEvAccept_cfg {n : Option Nat} : (setEvAccept n s).cfg = s.cfg := rfl
@[simp] theorem setEvAccept_res {n : Option Nat} : (setEvAccept n s).res = s.res := rfl
@[simp] theorem setEvAccept_input {n : Option Nat} : (setEvAccept n s).input = s.input := rfl
@[simp] theorem setEvAccept_evAccept {n : Option Nat} : (setEvAccept n s).evAccept = n := rfl

end Sys2Proof.Machine
end

