-- ==== Sys2Proof/Laws/Sum.lean ====
section
/-! SUPPORT. The function `sum8`, list slices and the checksum test: one lemma per fact that later proofs cite (rules R9, R68,
R90). -/

namespace Sys2Proof.Machine

/-- `sum8` as a number: the exact sum modulo 256 (rule R9). -/
theorem sum8_toNat (s : List Byte) : (sum8 s).toNat = (s.map BitVec.toNat).sum % 256 := by
  simp [sum8, BitVec.toNat_ofNat]

@[simp] theorem sum8_nil : sum8 [] = 0 := rfl

theorem sum8_cons (b : Byte) (s : List Byte) : sum8 (b :: s) = b + sum8 s := by
  apply BitVec.eq_of_toNat_eq
  simp [sum8, BitVec.toNat_add]

theorem sum8_append (s t : List Byte) : sum8 (s ++ t) = sum8 s + sum8 t := by
  induction s with
  | nil => simp
  | cons b s ih => simp [sum8_cons, ih, BitVec.add_assoc]

@[simp] theorem sum8_singleton (b : Byte) : sum8 [b] = b := by simp [sum8_cons]

theorem slice_zero (s : List Byte) (j : Nat) : slice s 0 j = s.take j := by simp [slice]

theorem slice_length (s : List Byte) {i j : Nat} (h : j ≤ s.length) : (slice s i j).length = j - i := by
  simp [slice]; omega

/-- Reading inside a prefix does not see what follows it. -/
theorem slice_append_left (s t : List Byte) {i j : Nat} (h : j ≤ s.length) : slice (s ++ t) i j = slice s i j := by
  unfold slice
  by_cases hi : i ≤ s.length
  · rw [List.drop_append_of_le_length hi, List.take_append_of_le_length (by simp; omega)]
  · have : j - i = 0 := by omega
    simp [this]

theorem byteAt_append_left (s t : List Byte) {i : Nat} (h : i < s.length) : byteAt (s ++ t) i = byteAt s i := by
  simp [byteAt, List.getD_eq_getElem?_getD, List.getElem?_append_left h]

/-- The checksum test on a sequence closed by the byte `c` (rule R68). -/
theorem checksumOk_concat (F : List Byte) (c : Byte) : checksumOk (F ++ [c]) = (c == sum8 F) := by
  simp [checksumOk, byteAt, slice, List.getD_eq_getElem?_getD]

/-- VERIFY on a closed sequence of at least two bytes (rules R91, R96). -/
theorem verifyBit_concat (F : List Byte) (c : Byte) (h : F ≠ []) : verifyBit (F ++ [c]) = (c == sum8 F) := by
  have : 1 ≤ F.length := List.length_pos_of_ne_nil h
  simp only [verifyBit, List.length_append, List.length_singleton]
  rw [if_neg (by omega), checksumOk_concat]

end Sys2Proof.Machine
end

