-- ==== Sys2Proof/Laws/FrameDecoder.lean ====
section
/-! SUPPORT. What an extraction step, the loop of rule R133 and the byte-serial PUSH of rule R131 can do, said once: later
proofs cite these and do not unfold the steps. -/

namespace Sys2Proof.Machine

/-! ## One extraction step -/

/-- A step that makes progress consumes at least one byte, no more than BUF holds, and reports exactly the bytes it
consumes (rules R74, R132). -/
structure Consumes (B : List Byte) (e : Event) (k : Nat) : Prop where
  pos : 1 ≤ k
  le  : k ≤ B.length
  raw : e.raw = B.take k

theorem x88_consumes {B : List Byte} {e : Event} {k : Nat} (h : x88 B = .progress e k) : Consumes B e k := by
  simp only [x88] at h
  split at h
  · cases h
  · split at h
    · cases h
    · cases h
      exact ⟨by omega, by omega, by simp [Event.raw, slice_zero]⟩

theorem x66_consumes {B : List Byte} {e : Event} {k : Nat} (hB : B.head? = some 0x66)
    (h : x66 B = .progress e k) : Consumes B e k := by
  simp only [x66] at h
  split at h
  · cases h
  · split at h
    · cases h
      exact ⟨by omega, by omega, by simp [Event.raw, slice_zero]⟩
    · cases h
      refine ⟨by omega, by omega, ?_⟩
      cases B with
      | nil => cases hB
      | cons b t => simp only [List.head?_cons, Option.some.injEq] at hB; simp [Event.raw, hB]

theorem x77_consumes {B : List Byte} {e : Event} {k : Nat} (hB : B.head? = some 0x77)
    (h : x77 B = .progress e k) : Consumes B e k := by
  simp only [x77] at h
  split at h
  · cases h
  · split at h
    · cases h
      refine ⟨by omega, by omega, ?_⟩
      cases B with
      | nil => cases hB
      | cons b t => simp only [List.head?_cons, Option.some.injEq] at hB; simp [Event.raw, hB]
    · split at h
      · cases h
      · cases h
        exact ⟨by omega, by omega, by simp [Event.raw, slice_zero]⟩

theorem xuds_consumes {header : Byte} {B : List Byte} {e : Event} {k : Nat}
    (h : xuds header B = .progress e k) : Consumes B e k := by
  simp only [xuds] at h
  split at h
  · cases h
  · cases h
    exact ⟨by omega, by omega, by simp [Event.raw, slice_zero]⟩

theorem xnoise_consumes {g : Byte} {B : List Byte} {e : Event} {k : Nat} (hB : B.head? = some g)
    (h : xnoise g = .progress e k) : Consumes B e k := by
  cases B with
  | nil => cases hB
  | cons b t =>
    simp only [List.head?_cons, Option.some.injEq] at hB
    cases h
    exact ⟨by omega, by simp, by simp [Event.raw, hB]⟩

/-- The leader of a class of one value is that value (rule R61). -/
theorem classify_t88 {h : Byte} (hc : classify h = .t88) : h = 0x88 := by
  unfold classify at hc
  repeat' split at hc
  all_goals first | assumption | cases hc

theorem classify_s66 {h : Byte} (hc : classify h = .s66) : h = 0x66 := by
  unfold classify at hc
  repeat' split at hc
  all_goals first | assumption | cases hc

theorem classify_c77 {h : Byte} (hc : classify h = .c77) : h = 0x77 := by
  unfold classify at hc
  repeat' split at hc
  all_goals first | assumption | cases hc

theorem fdStep_consumes {B : List Byte} {e : Event} {k : Nat} (h : fdStep B = .progress e k) :
    Consumes B e k := by
  cases B with
  | nil => cases h
  | cons b t =>
    simp only [fdStep] at h
    split at h
    · exact x88_consumes h
    · exact x66_consumes (congrArg some (classify_s66 ‹_›)) h
    · exact x77_consumes (congrArg some (classify_c77 ‹_›)) h
    · exact xuds_consumes h
    · exact xnoise_consumes rfl h

/-- An extraction step on the state changes nothing, or takes the one step. -/
theorem applyStep_cases (r : StepResult) (s : State) :
    applyStep r s = s ∨
    ∃ e k, r = .progress e k ∧ evAccepts s = true ∧ applyStep r s = takeStep e k s := by
  cases r with
  | idle => exact .inl rfl
  | wait => exact .inl rfl
  | progress e k =>
    by_cases h : evAccepts s
    · exact .inr ⟨e, k, rfl, h, by simp [applyStep, h]⟩
    · exact .inl (by simp [applyStep, h])

/-- An extraction instruction answers exactly when the leader selects it (rules R61, R132). -/
theorem execExtract_next {h : Byte} {c : WireClass} {f : List Byte → StepResult} {s t : State} :
    execExtract h c f s = .next t ↔ (s.buf.head? = some h ∧ classify h = c) ∧ t = applyStep (f s.buf) s := by
  unfold execExtract
  split
  · simp [*, Host.Outcome.next.injEq, eq_comm (a := t)]
  · simp [*]

/-! ## The loop -/

/-- Whatever every taken step keeps, the loop keeps (rule R133). -/
theorem drainFor_keeps {P : State → Prop}
    (step : ∀ s e k, P s → fdStep s.buf = .progress e k → evAccepts s = true → P (takeStep e k s)) :
    ∀ n s, P s → P (drainFor n s) := by
  intro n
  induction n with
  | zero => intro s hs; exact hs
  | succ n ih =>
    intro s hs
    unfold drainFor
    split
    · exact hs
    · exact hs
    · split
      · exact ih _ (step _ _ _ hs ‹_› ‹_›)
      · exact hs

theorem drain_keeps {P : State → Prop}
    (step : ∀ s e k, P s → fdStep s.buf = .progress e k → evAccepts s = true → P (takeStep e k s))
    (s : State) (hs : P s) : P (drain s) := drainFor_keeps step _ s hs

/-- The loop writes only BUF, POS, OUT and what EV still accepts (rule R149). -/
theorem drain_frame (s : State) :
    (drain s).rxcnt = s.rxcnt ∧ (drain s).cfg = s.cfg ∧ (drain s).res = s.res ∧ (drain s).input = s.input :=
  drain_keeps (P := fun t => t.rxcnt = s.rxcnt ∧ t.cfg = s.cfg ∧ t.res = s.res ∧ t.input = s.input)
    (fun _ _ _ h _ _ => h) s ⟨rfl, rfl, rfl, rfl⟩

@[simp] theorem drain_rxcnt (s : State) : (drain s).rxcnt = s.rxcnt := (drain_frame s).1
@[simp] theorem drain_cfg (s : State) : (drain s).cfg = s.cfg := (drain_frame s).2.1
@[simp] theorem drain_res (s : State) : (drain s).res = s.res := (drain_frame s).2.2.1
@[simp] theorem drain_input (s : State) : (drain s).input = s.input := (drain_frame s).2.2.2

/-- What appending one byte and taking one step both keep, and putting bytes back on the port keeps, PUSH keeps. -/
theorem pushBytes_keeps {P : State → Prop}
    (step : ∀ s e k, P s → fdStep s.buf = .progress e k → evAccepts s = true → P (takeStep e k s))
    (app : ∀ s b, P s → rxOpen s = true → P (bufAppend b s))
    (back : ∀ s q, P s → P (setInput q s)) :
    ∀ chunk s, P s → P (pushBytes chunk s) := by
  intro chunk
  induction chunk with
  | nil => intro s hs; exact hs
  | cons b bs ih =>
    intro s hs
    unfold pushBytes
    split
    · exact ih _ (drain_keeps step _ (app _ _ hs ‹_›))
    · exact back _ _ hs

/-- PUSH answers a next state on every instance with `BUF_CAP >= 259` (rule R130: "PUSH itself raises none"). -/
theorem execPush_next {chunk : List Byte} {s t : State} :
    execPush chunk s = .next t ↔ capOk s.cfg = true ∧ t = pushBytes chunk (drain s) := by
  unfold execPush
  split
  · simp [*, eq_comm (a := t)]
  · simp [*]

end Sys2Proof.Machine
end

