-- ==== Sys2Proof/Laws/Ops.lean ====
section
/-! SUPPORT. Small facts of the named operations: where the primitives of rule R44 are defined, the counters under a step that is
taken, the limits of an instance, and the bytes of a run of events. -/

namespace Sys2Proof.Machine

/-- `MemRead(i, n)` is defined exactly when `i + n <= |BUF|` (rule R44). -/
theorem memRead_isSome (s : State) (i n : Nat) : (memRead s i n).isSome = true ↔ i + n ≤ s.buf.length := by
  unfold memRead
  split <;> simp_all

/-- Where it is defined it returns n bytes (rule R44). -/
theorem memRead_length {s : State} {i n : Nat} {bytes : List Byte} (h : memRead s i n = some bytes) :
    bytes.length = n := by
  unfold memRead at h
  split at h
  · cases h
    rw [slice_length _ ‹_›]
    omega
  · cases h

/-- A step that makes progress reports what `MemRead(0, k)` reads (rules R74, R149). -/
theorem memRead_of_progress {s : State} {e : Event} {k : Nat} (h : fdStep s.buf = .progress e k) :
    memRead s 0 k = some e.raw := by
  have hc := fdStep_consumes h
  simp [memRead, hc.le, hc.raw, slice_zero]

/-- `TabRead(t, i)` is defined exactly when `i < n_t` (rule R44). -/
theorem tabRead_isSome (cfg : Config) (t : TableId) (i : Nat) :
    (tabRead cfg t i).isSome = true ↔ i < (tab cfg t).points.length := by
  simp [tabRead]

/-- Taking a step moves k bytes from BUF to POS (rule R26). -/
theorem takeStep_counts {s : State} {e : Event} {k : Nat} (h : k ≤ s.buf.length) :
    (takeStep e k s).pos + (takeStep e k s).buf.length = s.pos + s.buf.length := by
  simp only [takeStep_pos, takeStep_buf, List.length_drop]
  omega

theorem evAccepts_iff (s : State) : evAccepts s = true ↔ s.evAccept ≠ some 0 := by simp [evAccepts]

/-- Where EV always accepts, it accepts (rule R182, `EvAccepts`). -/
theorem evAccepts_of_none {s : State} (h : s.evAccept = none) : evAccepts s = true := by simp [evAccepts, h]

theorem fits_iff (limit : Option Nat) (n : Nat) : fits limit n = true ↔ ∀ m, limit = some m → n ≤ m := by
  cases limit <;> simp [fits]

theorem capOk_iff (cfg : Config) : capOk cfg = true ↔ ∀ c, cfg.bufCap = some c → maxFrame ≤ c := by
  unfold capOk
  cases cfg.bufCap <;> simp

theorem rxOpen_iff (s : State) : rxOpen s = true ↔ ∀ c, s.cfg.bufCap = some c → s.buf.length < c := by
  unfold rxOpen
  cases s.cfg.bufCap <;> simp

theorem quiescent_iff (B : List Byte) : quiescent B = true ↔ ∀ e k, fdStep B ≠ .progress e k := by
  unfold quiescent
  split <;> simp_all

/-- The length bits of a header, as a remainder (rule R65). -/
theorem udsLen_eq_mod : ∀ header : Byte, udsLen header = header.toNat % 64 := by decide

@[simp] theorem rawBytes_nil : rawBytes [] = [] := rfl
@[simp] theorem rawBytes_cons (e : Event) (es : List Event) : rawBytes (e :: es) = e.raw ++ rawBytes es := rfl
@[simp] theorem rawBytes_append (es fs : List Event) : rawBytes (es ++ fs) = rawBytes es ++ rawBytes fs := by
  simp [rawBytes]

end Sys2Proof.Machine
end

