-- ==== Sys2Proof/Laws/PerInstr.lean ====
section
/-! SUPPORT. Statements for all instructions, made one instruction at a time. EncodesToItsRow: the word an instruction encodes to
lies in the row of spec/opcode_table.json that bears its mnemonic, the row of smaller priority number winning where two rows
take a word (rules R71, R72). -/

namespace Sys2Proof.Laws.EncodesToItsRow

open Sys2Proof

/-- The mnemonic of the row an encoded word belongs to; the pin has a row of its own. -/
def rowMnemonic : Encoded → Option String
  | .leader h => (rowOf leaderRows h.toNat).map Row.mnemonic
  | .op code _ => (rowOf opRows code.toNat).map Row.mnemonic
  | .pin => some "RST"

def Statement (i : Instr) : Prop := i.wf = true → rowMnemonic (encode i) = some i.mnemonic

theorem x88 : Statement .x88 := by intro _; decide
theorem x66 : Statement .x66 := by intro _; decide
theorem x77 : Statement .x77 := by intro _; decide

/-- Every header of class UDS lies in the row XUDS and in no row of priority 0. -/
theorem udsHeader_row : ∀ h : Byte, udsHeader h = true → rowMnemonic (.leader h) = some "XUDS" := by decide

/-- Every byte of class NOISE lies in the row XNOISE and in no row of priority 0. -/
theorem noiseByte_row : ∀ g : Byte, noiseByte g = true → rowMnemonic (.leader g) = some "XNOISE" := by decide

theorem xuds (header : Byte) : Statement (.xuds header) := udsHeader_row header
theorem xnoise (byte : Byte) : Statement (.xnoise byte) := noiseByte_row byte
theorem reserved0 : Statement .reserved0 := by intro _; decide
theorem push (chunk : List Byte) : Statement (.push chunk) := by intro _; rfl
theorem clr : Statement .clr := by intro _; decide
theorem csum (bytes : List Byte) : Statement (.csum bytes) := by intro _; rfl
theorem verify (bytes : List Byte) : Statement (.verify bytes) := by intro _; rfl
theorem build (dst src sid : Byte) (data : List Byte) : Statement (.build dst src sid data) := by intro _; rfl
theorem acks (n : Byte) : Statement (.acks n) := by intro _; rfl
theorem ackp (n : Byte) : Statement (.ackp n) := by intro _; rfl
theorem interp (t : TableId) (raw : Raw) : Statement (.interp t raw) := by intro _; cases t <;> rfl
theorem tempa (raw : Raw) : Statement (.tempa raw) := by intro _; rfl
theorem tempb (raw : Raw) : Statement (.tempb raw) := by intro _; rfl
theorem press (raw : Raw) : Statement (.press raw) := by intro _; rfl
theorem volt (raw : Raw) : Statement (.volt raw) := by intro _; rfl
theorem rst : Statement .rst := by intro _; decide

end Sys2Proof.Laws.EncodesToItsRow
end

