-- ==== Sys2Proof/Laws/PureUnits.lean ====
section
/-! SUPPORT. What a CK or a CAL operation can do, said once, and the basic facts of the bracket search. -/

namespace Sys2Proof.Machine

/-- A CK operation with a length limit delivers its result, or refuses an operand over the limit. -/
theorem ckLimited_next {limit : Option Nat} {n : Nat} {op : Instr} {r : Result} {s t : State} :
    ckLimited limit n op r s = .next t ↔ fits limit n = true ∧ t = deliver op r s := by
  unfold ckLimited
  split
  · simp [*, eq_comm (a := t)]
  · simp [*]

/-- A CAL operation delivers the calibrated value; it is refused where there is none (rule R194 (a)). -/
theorem calOp_next {t : TableId} {raw : Raw} {op : Instr} {form : Int → Result} {s u : State} :
    calOp t raw op form s = .next u ↔ ∃ y, calibrate s.cfg t raw = some y ∧ u = deliver op (form y) s := by
  unfold calOp
  cases calibrate s.cfg t raw with
  | none => simp
  | some y => simp [eq_comm (a := u)]

theorem floorDiv_eq (p : Int) {q : Int} (hq : 0 < q) : floorDiv p q = p / q :=
  Int.fdiv_eq_ediv_of_nonneg p (Int.le_of_lt hq)

/-- The floor of a quotient, by the two inequalities that fix it (rule R10). -/
theorem floorDiv_spec (p : Int) {q : Int} (hq : 0 < q) : q * floorDiv p q ≤ p ∧ p < q * floorDiv p q + q := by
  rw [floorDiv_eq p hq]
  exact ⟨Int.mul_ediv_self_le (Int.ne_of_gt hq), Int.lt_mul_ediv_self_add hq⟩

/-- An integer rounds to itself (rule R112, the clamped branches). -/
theorem roundHalfUp_integer (y : Int) : roundHalfUp { num := y, den := 1 } = y := by
  simp only [roundHalfUp]
  rw [floorDiv_eq _ (by omega)]
  omega

/-- The bracket of rule R111 exists between the first and the last breakpoint. -/
theorem bracket_isSome (r : Int) : ∀ (p : Breakpoint) (rest : List Breakpoint), (p.raw : Int) ≤ r →
    (∀ last, (p :: rest).getLast? = some last → r < (last.raw : Int)) → (bracket r (p :: rest)).isSome = true := by
  intro p rest
  induction rest generalizing p with
  | nil => intro hp hl; have := hl p rfl; omega
  | cons q rest ih =>
    intro hp hl
    unfold bracket
    split
    · rfl
    · refine ih q (by omega) ?_
      intro last h
      exact hl last (by simpa [List.getLast?_cons_cons] using h)

/-- On a table with a breakpoint every raw value has an interpolated value (rule R111). -/
theorem interp_isSome (r : Int) {points : List Breakpoint} (h : points ≠ []) : (interp r points).isSome = true := by
  cases points with
  | nil => exact absurd rfl h
  | cons p rest =>
    simp only [interp, interpExact, List.head?_cons, Option.isSome_map]
    cases hl : (p :: rest).getLast? with
    | none => simp at hl
    | some last =>
      simp only
      split
      · rfl
      · split
        · rfl
        · simp only [Option.isSome_map]
          refine bracket_isSome r p rest (by omega) ?_
          intro l hl'
          rw [hl] at hl'
          cases hl'
          omega

/-- What the bracket search finds is a pair of neighbours that brackets the raw value (rule R111). -/
theorem bracket_spec (r : Int) : ∀ (points : List Breakpoint) (p q : Breakpoint), bracket r points = some (p, q) →
    [p, q] <:+: points ∧ (p.raw : Int) ≤ r ∧ r < (q.raw : Int) := by
  intro points
  induction points with
  | nil => intro p q h; cases h
  | cons a rest ih =>
    intro p q h
    cases rest with
    | nil => cases h
    | cons b rest =>
      unfold bracket at h
      split at h
      · cases h
        exact ⟨⟨[], rest, rfl⟩, ‹_ ∧ _›⟩
      · obtain ⟨hin, hr⟩ := ih p q h
        exact ⟨hin.trans (List.suffix_cons a _).isInfix, hr⟩

/-- A well-formed table has a breakpoint. -/
theorem tableWf_ne_nil {cfg : Config} {t : Table} (h : tableWf cfg t = true) : t.points ≠ [] := by
  intro hn
  simp [tableWf, hn] at h

/-- On a well-formed table every raw operand has a value: CAL is total in raw (rules R110, R113). -/
theorem calibrate_isSome {cfg : Config} {t : TableId} (raw : Raw) (h : tableWf cfg (tab cfg t) = true) :
    (calibrate cfg t raw).isSome = true := by
  simp only [calibrate, h, if_true]
  exact interp_isSome _ (tableWf_ne_nil h)

end Sys2Proof.Machine
end

