-- ==== Sys2Proof/Laws/Step.lean ====
section
/-! SUPPORT. The inversion lemmas of `exec`, `fetch` and `step`: everything an instruction or a step can do when it answers a
next state. -/

namespace Sys2Proof.Machine

/-- When the leader selects an extraction instruction, its meaning is `Step(BUF)` applied to the state (rule R132). -/
theorem exec_of_decodeFront {i : Instr} {s : State} (h : decodeFront s.buf = .ok i) :
    exec i s = .next (applyStep (fdStep s.buf) s) := by
  cases hb : s.buf with
  | nil => rw [hb] at h; cases h
  | cons b rest =>
    rw [hb] at h
    simp only [decodeFront, Except.ok.injEq] at h
    subst h
    unfold decodeLeader
    cases hc : classify b with
    | t88 =>
      have := classify_t88 hc
      simp [exec, execX88, execExtract, hb, fdStep, hc, ← this]
    | s66 =>
      have := classify_s66 hc
      simp [exec, execX66, execExtract, hb, fdStep, hc, ← this]
    | c77 =>
      have := classify_c77 hc
      simp [exec, execX77, execExtract, hb, fdStep, hc, ← this]
    | uds => simp [exec, execXuds, execExtract, hb, fdStep, hc]
    | noise => simp [exec, execXnoise, execExtract, hb, fdStep, hc]

/-- An extraction meaning that answers has the leader that selects it. -/
theorem execExtract_decodes {h : Byte} {c : WireClass} {f : List Byte → StepResult} {s t : State}
    (hx : execExtract h c f s = .next t) : decodeFront s.buf = .ok (decodeLeader h) ∧ classify h = c := by
  obtain ⟨⟨hh, hc⟩, -⟩ := execExtract_next.mp hx
  cases hb : s.buf with
  | nil => rw [hb] at hh; cases hh
  | cons b rest =>
    rw [hb] at hh
    simp only [List.head?_cons, Option.some.injEq] at hh
    exact ⟨by simp [decodeFront, hh], hc⟩

/-- The five kinds of effect an instruction can have when it answers a next state. -/
inductive Effect (i : Instr) (s : State) : State → Prop
  /-- An extraction step, selected by the leader. -/
  | extract (hd : decodeFront s.buf = .ok i) : Effect i s (applyStep (fdStep s.buf) s)
  /-- PUSH. -/
  | push (chunk : List Byte) (hi : i = .push chunk) (hc : capOk s.cfg = true) :
      Effect i s (pushBytes chunk (drain s))
  /-- CLR. -/
  | clr (hi : i = .clr) : Effect i s (clearBuf s)
  /-- RST. -/
  | rst (hi : i = .rst) : Effect i s (resetFd s)
  /-- A CK or CAL operation. -/
  | result (r : Result) (hp : isCk i = true ∨ isCal i = true) : Effect i s (deliver i r s)

theorem exec_effect {i : Instr} {s t : State} (h : exec i s = .next t) : Effect i s t := by
  cases i with
  | x88 =>
    have hd := (execExtract_decodes (c := .t88) h).1
    rw [exec_of_decodeFront (i := .x88) hd] at h; cases h; exact .extract hd
  | x66 =>
    have hd := (execExtract_decodes (c := .s66) h).1
    rw [exec_of_decodeFront (i := .x66) hd] at h; cases h; exact .extract hd
  | x77 =>
    have hd := (execExtract_decodes (c := .c77) h).1
    rw [exec_of_decodeFront (i := .x77) hd] at h; cases h; exact .extract hd
  | xuds header =>
    obtain ⟨hd, hc⟩ := execExtract_decodes (c := .uds) h
    rw [show decodeLeader header = .xuds header by simp [decodeLeader, hc]] at hd
    rw [exec_of_decodeFront hd] at h; cases h; exact .extract hd
  | xnoise byte =>
    obtain ⟨hd, hc⟩ := execExtract_decodes (c := .noise) (f := fun _ => Machine.xnoise byte) h
    rw [show decodeLeader byte = .xnoise byte by simp [decodeLeader, hc]] at hd
    rw [exec_of_decodeFront hd] at h; cases h; exact .extract hd
  | reserved0 => cases h
  | push chunk => obtain ⟨hc, rfl⟩ := execPush_next.mp h; exact .push chunk rfl hc
  | clr => cases h; exact .clr rfl
  | rst => cases h; exact .rst rfl
  | csum bytes => obtain ⟨-, rfl⟩ := ckLimited_next.mp h; exact .result _ (.inl rfl)
  | verify bytes => obtain ⟨-, rfl⟩ := ckLimited_next.mp h; exact .result _ (.inl rfl)
  | build dst src sid data => obtain ⟨-, rfl⟩ := ckLimited_next.mp h; exact .result _ (.inl rfl)
  | acks n => cases h; exact .result _ (.inl rfl)
  | ackp n => cases h; exact .result _ (.inl rfl)
  | interp t raw => obtain ⟨y, -, rfl⟩ := calOp_next.mp h; exact .result _ (.inr rfl)
  | tempa raw => obtain ⟨y, -, rfl⟩ := calOp_next.mp h; exact .result _ (.inr rfl)
  | tempb raw => obtain ⟨y, -, rfl⟩ := calOp_next.mp h; exact .result _ (.inr rfl)
  | press raw => obtain ⟨y, -, rfl⟩ := calOp_next.mp h; exact .result _ (.inr rfl)
  | volt raw => obtain ⟨y, -, rfl⟩ := calOp_next.mp h; exact .result _ (.inr rfl)

/-- What a step did when it answered a next state. `q` is what the surroundings still have to do. -/
inductive StepEffect (s : State) : State → Prop
  /-- The Frame Decoder took one extraction step, where no port but RX acts next or an idle was taken. -/
  | extract (i : Instr) (q : List Transaction)
      (hq : (q = s.input ∧ onlyRxNext s.input = true) ∨ takeTransaction (rxOpen s) s.input = some (.idle, q))
      (hr : fdReady s = true) (hd : decodeFront s.buf = .ok i) {t : State}
      (hx : exec i (setInput q s) = .next t) : StepEffect s t
  /-- A transaction was taken and its instruction run. -/
  | transaction (tr : Transaction) (q : List Transaction) (i : Instr)
      (ht : takeTransaction (rxOpen s) s.input = some (tr, q))
      (hn : tr ≠ .idle) (hf : fetchTransaction tr (setInput q s) = .run i (setInput q s)) {t : State}
      (hrx : tr.onRx = true → fdReady s = false) (hx : exec i (setInput q s) = .next t) : StepEffect s t
  /-- RX handed over one byte. -/
  | accept (b : Byte) (q : List Transaction) (hr : fdReady s = false) (hc : capOk s.cfg = true)
      (ht : takeTransaction (rxOpen s) s.input = some (.rx b, q)) : StepEffect s (bufAppend b (setInput q s))
  /-- The consumer of EV changed what it accepts. -/
  | env (n : Option Nat) (q : List Transaction)
      (ht : takeTransaction (rxOpen s) s.input = some (.evAccept n, q)) :
      StepEffect s (setEvAccept n (setInput q s))
  /-- Nothing could move. -/
  | nothing (q : List Transaction) (hr : fdReady s = false)
      (hq : (q = s.input ∧ takeTransaction (rxOpen s) s.input = none) ∨
        takeTransaction (rxOpen s) s.input = some (.idle, q)) : StepEffect s (setInput q s)

/-- The answer of a step to what it fetched (rule R45). -/
def answer : Fetched → Host.Outcome State Fault Refusal
  | .run i s => exec i s
  | .accept b s => acceptByte b s
  | .env s => .next s
  | .rejected e => .refused (refusalOf e)

theorem step_eq (s : State) : step s = answer (fetch s) := by
  unfold step answer
  split <;> simp_all

theorem acceptByte_next {b : Byte} {s t : State} :
    acceptByte b s = .next t ↔ capOk s.cfg = true ∧ t = bufAppend b s := by
  unfold acceptByte
  split
  · simp [*, eq_comm (a := t)]
  · simp [*]

/-- The Frame Decoder's own move is the extraction step its leader selects, or nothing (rules R53, R140). -/
theorem fdMove_next {s t : State} (h : answer (fdMove s) = .next t) :
    (fdReady s = true ∧ ∃ i, decodeFront s.buf = .ok i ∧ exec i s = .next t) ∨ (fdReady s = false ∧ t = s) := by
  unfold fdMove at h
  cases hr : fdReady s with
  | false => rw [hr] at h; cases h; exact .inr ⟨rfl, rfl⟩
  | true =>
    rw [hr] at h
    cases hd : decodeFront s.buf with
    | error e => rw [hd] at h; cases h
    | ok i => rw [hd] at h; exact .inl ⟨rfl, i, rfl, h⟩

/-- A taken action of RX was taken while RX was open, and RX stands first where it is open (rule R54). -/
theorem takeTransaction_onRx {b : Bool} {l : List Transaction} {t : Transaction} {q : List Transaction}
    (h : takeTransaction b l = some (t, q)) (hr : t.onRx = true) : b = true ∧ onlyRxNext l = true := by
  induction l generalizing q with
  | nil => cases h
  | cons a l ih =>
    unfold takeTransaction at h
    split at h
    · rename_i hc
      cases hl : takeTransaction b l with
      | none => rw [hl] at h; cases h
      | some p =>
        rw [hl] at h
        cases h
        have := (ih hl).1
        simp_all
    · rename_i hc
      cases h
      simp_all [onlyRxNext]

theorem step_effect {s t : State} (h : step s = .next t) : StepEffect s t := by
  rw [step_eq] at h
  unfold fetch at h
  split at h
  · rename_i hc
    obtain ⟨hr, ho⟩ := Bool.and_eq_true_iff.mp hc
    obtain ⟨-, i, hd, hx⟩ | ⟨hf, -⟩ := fdMove_next h
    · exact .extract i s.input (.inl ⟨rfl, ho⟩) hr hd hx
    · rw [hr] at hf; cases hf
  · rename_i hc
    cases ht : takeTransaction (rxOpen s) s.input with
    | none =>
      rw [ht] at h
      cases h
      have hr : fdReady s = false := by
        cases hr : fdReady s with
        | false => rfl
        | true =>
          cases hi : s.input with
          | nil => simp [hr, hi, onlyRxNext] at hc
          | cons a l =>
            rw [hi] at ht
            cases ha : a.onRx with
            | true => simp [hr, hi, onlyRxNext, ha] at hc
            | false => simp [takeTransaction, ha] at ht
      exact .nothing s.input hr (.inl ⟨rfl, ht⟩)
    | some p =>
      obtain ⟨tr, q⟩ := p
      rw [ht] at h
      have hrx : tr.onRx = true → fdReady s = false := by
        intro hn
        have := (takeTransaction_onRx ht hn).2
        simp_all
      cases tr with
      | push chunk => exact .transaction _ q _ ht (by simp) rfl hrx h
      | rx b =>
        obtain ⟨hcap, rfl⟩ := acceptByte_next.mp h
        exact .accept b q (hrx rfl) hcap ht
      | clr => exact .transaction _ q _ ht (by simp) rfl hrx h
      | rst => exact .transaction _ q _ ht (by simp) rfl hrx h
      | cmd code operands =>
        cases hd : decodeCmd code operands with
        | error e => simp only [fetchTransaction, hd] at h; cases h
        | ok i =>
          simp only [fetchTransaction, hd] at h
          exact .transaction _ q i ht (by simp) (by simp [fetchTransaction, hd, fetchedOf]) hrx h
      | evAccept n => cases h; exact .env n q ht
      | idle =>
        obtain ⟨hr, i, hd, hx⟩ | ⟨hr, rfl⟩ := fdMove_next h
        · exact .extract i q (.inr ht) hr hd hx
        · exact .nothing q hr (.inr ht)

/-- The transactions that stay are among those that waited. -/
theorem takeTransaction_mem {b : Bool} {l : List Transaction} {t : Transaction} {q : List Transaction}
    (h : takeTransaction b l = some (t, q)) : t ∈ l ∧ ∀ u ∈ q, u ∈ l := by
  induction l generalizing q with
  | nil => cases h
  | cons a l ih =>
    unfold takeTransaction at h
    split at h
    · cases hl : takeTransaction b l with
      | none => rw [hl] at h; cases h
      | some p =>
        rw [hl] at h
        cases h
        obtain ⟨h1, h2⟩ := ih hl
        refine ⟨by simp [h1], fun u hu => ?_⟩
        rcases List.mem_cons.mp hu with rfl | hu
        · simp
        · simp [h2 u hu]
    · cases h
      exact ⟨by simp, fun u hu => by simp [hu]⟩

end Sys2Proof.Machine
end

