-- ==== Sys2Proof/Tests/Slice0.lean ====
section
/-! SUPPORT. The model's own tests: the WellFormed smoke tests, words written out from the spec's encodings, one or two worked
vectors of 95_test_vectors.md for each instruction, and a witness for the hypotheses of each obligation that has any. Every expected
value is the spec's own or computed by hand from its rules. -/

namespace Sys2Proof.Tests

open Sys2Proof Sys2Proof.Machine

/-! ## Helpers -/

/-- The next state, where there is one. -/
def after (o : Host.Outcome State Fault Refusal) : Option State :=
  match o with
  | .next t => some t
  | .fault _ => none
  | .refused _ => none

/-- The refusal, where there is one. -/
def refusal (o : Host.Outcome State Fault Refusal) : Option Refusal :=
  match o with
  | .next _ => none
  | .fault _ => none
  | .refused r => some r

/-- A decoded instruction, where there is one. -/
def decoded (r : Except DecodeError Instr) : Option Instr :=
  match r with
  | .ok i => some i
  | .error _ => none

/-- The reset state with bytes pending. -/
def pending (buf : List Byte) : State := { State.reset with buf := buf, rxcnt := buf.length }

/-- The events and the residue after an instruction. -/
def streamAfter (i : Instr) (s : State) : Option (List Event × List Byte) :=
  (after (exec i s)).map (fun t => (t.out, t.buf))

/-- The last result on RES after an instruction. -/
def resultOf (i : Instr) (s : State) : Option Result := ((after (exec i s)).bind (·.res.getLast?)).map ResRecord.result

/-- A table from its points. -/
def table (w : RawWidth) (l : List (Nat × Int)) : Table := { rawW := w, points := l.map (fun p => ⟨p.1, p.2⟩) }

/-- The fixtures of 95_test_vectors.md, section 2.2. -/
def fixtures : State := { State.reset with cfg := { Config.placeholder with
  tempA := table .w8 [(0, -40), (50, 0), (100, 25), (200, 100), (255, 150)]
  tempB := table .w8 [(10, 100), (20, 50), (30, 50), (40, 200)]
  press := table .w8 [(0, 0), (255, 300)]
  volt := table .w16 [(0, -500), (1000, 0), (40000, 1500), (65535, 2000)] } }

/-! ## WellFormed: each check refuses an ill-formed term -/

theorem test_wf_udsHeader_without_bit7 : (Instr.xuds 0x12).wf = false := by decide
theorem test_wf_udsHeader_telemetry : (Instr.xuds 0x88).wf = false := by decide
theorem test_wf_noise_with_bit7 : (Instr.xnoise 0x80).wf = false := by decide
theorem test_wf_noise_screen : (Instr.xnoise 0x66).wf = false := by decide
theorem test_wf_noise_config : (Instr.xnoise 0x77).wf = false := by decide
theorem test_wf_accepts : (Instr.xuds 0xC8).wf = true ∧ (Instr.xnoise 0x7F).wf = true := by decide

/-! ## Decoding: words from rules R61 and R72, every constructor -/

theorem test_decode_leaders :
    decodeLeader 0b10001000 = .x88 ∧ decodeLeader 0b01100110 = .x66 ∧ decodeLeader 0b01110111 = .x77 ∧
    decodeLeader 0b10000100 = .xuds 0x84 ∧ decodeLeader 0b11001000 = .xuds 0xC8 ∧
    decodeLeader 0b00000000 = .xnoise 0x00 ∧ decodeLeader 0b01100111 = .xnoise 0x67 := by decide

theorem test_decode_fd_ck_codes :
    decoded (decodeOp 0b0000 .none) = some .reserved0 ∧
    decoded (decodeOp 0b0001 (.bytes [0x88, 0x01])) = some (.push [0x88, 0x01]) ∧
    decoded (decodeOp 0b0010 .none) = some .clr ∧
    decoded (decodeOp 0b0011 (.bytes [0x01])) = some (.csum [0x01]) ∧
    decoded (decodeOp 0b0100 (.bytes [0x05, 0x05])) = some (.verify [0x05, 0x05]) ∧
    decoded (decodeOp 0b0101 (.frame 0x28 0xF1 0x3E [0x01])) = some (.build 0x28 0xF1 0x3E [0x01]) ∧
    decoded (decodeOp 0b0110 (.number 0x05)) = some (.acks 0x05) ∧
    decoded (decodeOp 0b0111 (.number 0x02)) = some (.ackp 0x02) := by decide

theorem test_decode_cal_codes :
    decoded (decodeOp 0b1000 (.raw 75)) = some (.interp .tempA 75) ∧
    decoded (decodeOp 0b1001 (.raw 35)) = some (.interp .tempB 35) ∧
    decoded (decodeOp 0b1010 (.raw 128)) = some (.interp .press 128) ∧
    decoded (decodeOp 0b1011 (.raw 50000)) = some (.interp .volt 50000) ∧
    decoded (decodeOp 0b1100 (.raw 49)) = some (.tempa 49) ∧
    decoded (decodeOp 0b1101 (.raw 15)) = some (.tempb 15) ∧
    decoded (decodeOp 0b1110 (.raw 128)) = some (.press 128) ∧
    decoded (decodeOp 0b1111 (.raw 999)) = some (.volt 999) := by decide

theorem test_decode_pin : decoded (decode .pin) = some .rst := by decide

theorem test_decode_rejects :
    decodeFront [] = .error .emptyBuffer ∧ decodeCmd 0x1 (.bytes []) = .error (.reservedOnCmd 0x1) ∧
    decodeCmd 0x2 .none = .error (.reservedOnCmd 0x2) ∧ decodeOp 0x5 (.number 0x01) = .error (.wrongOperands 0x5) :=
  ⟨rfl, rfl, rfl, rfl⟩

/-- The two priorities and the rows of one priority: no operation code lies in two rows, and no two leader rows of one priority share
a byte. -/
theorem test_rows_are_disjoint :
    (∀ op : OpCode, (opRows.filter (fun r => r.takes op.toNat)).length = 1) ∧
    (∀ h : Byte, (leaderRows.filter (fun r => r.takes h.toNat && r.priority == 0)).length ≤ 1 ∧
      (leaderRows.filter (fun r => r.takes h.toNat && r.priority == 1)).length = 1) := by decide

theorem test_tableWord_first_step :
    decodeTableWord 8 0x88 = some .x88 ∧ decodeTableWord 8 0x00 = some (.xnoise 0x00) ∧
    decodeTableWord 4 0x0 = some .reserved0 ∧ decodeTableWord 8 0x0C = some (.tempa 0) ∧
    (after (step (State.reset.withFetchWord 8 0x77))).map State.out = some [.desync 0x77] ∧
    (after (step (State.reset.withFetchWord 4 0x6))).map State.res =
      some [⟨.acks 0, .bytes [0x55, 0x4F, 0x4B, 0x53, 0x00]⟩] := by decide

/-! ## Frame Decoder: vectors of 95_test_vectors.md -/

/-- The example of rule R134. -/
theorem test_x88_good : streamAfter .x88 (pending [0x88, 0x01, 0x02, 0xAA, 0xBB, 0xF0]) =
    some ([.telemetry88 0x01 [0xAA, 0xBB] true [0x88, 0x01, 0x02, 0xAA, 0xBB, 0xF0]], []) := by decide

/-- The second example of rule R134: one payload byte changed. -/
theorem test_x88_mismatch : streamAfter .x88 (pending [0x88, 0x01, 0x02, 0xAB, 0xBB, 0xF0, 0x88]) =
    some ([.telemetry88 0x01 [0xAB, 0xBB] false [0x88, 0x01, 0x02, 0xAB, 0xBB, 0xF0]], [0x88]) := by decide

/-- The examples of rule R135. -/
theorem test_x66_good : streamAfter .x66 (pending [0x66, 0x53, 0x43, 0x52, 0x5F, 0x05]) =
    some ([.screenRequest66 0x05 [0x66, 0x53, 0x43, 0x52, 0x5F, 0x05]], []) := by decide
theorem test_x66_literal : streamAfter .x66 (pending [0x66, 0x53, 0x43, 0x52, 0x00, 0x05]) =
    some ([.desync 0x66], [0x53, 0x43, 0x52, 0x00, 0x05]) := by decide

/-- The example of rule R136, and V42-10. -/
theorem test_x77_good : streamAfter .x77 (pending [0x77, 0x02, 0x03, 0x10, 0x20, 0xAC]) =
    some ([.config77 0x02 [0x10, 0x20] true [0x77, 0x02, 0x03, 0x10, 0x20, 0xAC]], []) := by decide
theorem test_x77_zero_length : streamAfter .x77 (pending [0x77, 0x09, 0x00]) =
    some ([.desync 0x77], [0x09, 0x00]) := by decide

/-- V42-17 (bit 6 ignored for the length, counted in the checksum) and V42-15 (L = 0, no sid). -/
theorem test_xuds_bit6 : streamAfter (.xuds 0xC4) (pending [0xC4, 0xF1, 0x28, 0x61, 0x01, 0x11, 0x22, 0x72]) =
    some ([.udsFrame 0xF1 0x28 (some 0x61) [0x01, 0x11, 0x22] true
      [0xC4, 0xF1, 0x28, 0x61, 0x01, 0x11, 0x22, 0x72]], []) := by decide
theorem test_xuds_short : streamAfter (.xuds 0x80) (pending [0x80, 0xF1, 0x28, 0x99]) =
    some ([.udsFrame 0xF1 0x28 none [] true [0x80, 0xF1, 0x28, 0x99]], []) := by decide

/-- The example of rule R138; a leader that does not select the step. -/
theorem test_xnoise : streamAfter (.xnoise 0x00) (pending [0x00, 0x88, 0x01]) =
    some ([.desync 0x00], [0x88, 0x01]) := by decide
theorem test_xnoise_not_selected : refusal (exec (.xnoise 0x00) (pending [0x88])) = some .leaderNotAtFront := by decide

/-- V42-7; V42-28 in two chunks, whose first waits. -/
theorem test_push_resync : streamAfter (.push [0x66, 0x66, 0x53, 0x43, 0x52, 0x5F, 0x07]) .reset =
    some ([.desync 0x66, .screenRequest66 0x07 [0x66, 0x53, 0x43, 0x52, 0x5F, 0x07]], []) := by decide
theorem test_push_second_chunk : streamAfter (.push [0x88]) (pending [0x66, 0x88, 0x01, 0x00, 0x89]) =
    some ([.desync 0x66, .telemetry88 0x01 [] true [0x88, 0x01, 0x00, 0x89]], [0x88]) := by decide

/-- The examples of rules R139 and R220. -/
theorem test_clr : (after (exec .clr (pending [0x88, 0x01, 0x05, 0xAA]))).map (fun t => (t.buf, t.pos, t.rxcnt, t.out)) =
    some ([], 4, 4, []) := by decide
theorem test_rst : after (exec .rst { pending [0x88, 0x01] with pos := 7, out := [.desync 0x00] }) = some .reset := by
  decide

/-! ## Checksum Unit -/

/-- V40-5, V40-6. -/
theorem test_csum : resultOf (.csum [0xFF, 0xFF, 0xFF]) .reset = some (.byte 0xFD) ∧
    resultOf (.csum [0x88, 0x01, 0x02, 0xAA, 0xBB]) .reset = some (.byte 0xF0) := by decide

/-- V40-11, V40-15, V40-17. -/
theorem test_verify : resultOf (.verify [0x00]) .reset = some (.bit false) ∧
    resultOf (.verify [0xFF, 0x01, 0x00]) .reset = some (.bit true) ∧
    resultOf (.verify [0x88, 0x01, 0x02, 0xAB, 0xBB, 0xF0]) .reset = some (.bit false) := by decide

/-- V40-20, and V40-25: the length bits wrap at 62 data bytes. -/
theorem test_build : resultOf (.build 0x28 0xF1 0x3E [0x01]) .reset =
    some (.bytes [0x83, 0x28, 0xF1, 0x3E, 0x01, 0xDB]) := by decide
theorem test_build_wraps : buildHeader 61 = 0xBF ∧ buildHeader 62 = 0x80 ∧ buildHeader 126 = 0x80 := by decide

/-- V40-31, V40-33. -/
theorem test_acks : resultOf (.acks 0xFF) .reset = some (.bytes [0x55, 0x4F, 0x4B, 0x53, 0xFF]) := by decide
theorem test_ackp : resultOf (.ackp 0x80) .reset = some (.bytes [0x55, 0x4F, 0x4B, 0x50, 0x80]) := by decide

theorem test_reserved0 : refusal (exec .reserved0 .reset) = some (.reservedCode 0x0) := by decide

/-! ## Calibration Decoder -/

/-- V41-7 (a tie) and V41-53 (16-bit). -/
theorem test_interp : resultOf (.interp .tempA 75) fixtures = some (.phys 13) ∧
    resultOf (.interp .volt 65534) fixtures = some (.phys 2000) := by decide

/-- V41-4 (floor of a negative quotient) and V41-19 (clamped). -/
theorem test_tempa : resultOf (.tempa 49) fixtures = some (.phys (-1)) ∧
    resultOf (.tempa 300) fixtures = some (.phys 150) := by decide

/-- V41-20, V41-26. -/
theorem test_tempb : resultOf (.tempb 9) fixtures = some (.phys 100) ∧
    resultOf (.tempb 35) fixtures = some (.phys 125) := by decide

/-- V41-43. -/
theorem test_press : resultOf (.press 128) fixtures = some (.tenthsOfBar 151) := by decide

/-- V41-48 (a tie toward plus infinity), V41-52. -/
theorem test_volt : resultOf (.volt 999) fixtures = some (.phys 0) ∧
    resultOf (.volt 50000) fixtures = some (.phys 1696) := by decide

/-- The three refused tables of 95_test_vectors.md, section 2.2. -/
theorem test_tables_refused : tableWf fixtures.cfg (table .w8 []) = false ∧
    tableWf fixtures.cfg (table .w8 [(5, 1), (5, 2)]) = false ∧
    tableWf fixtures.cfg (table .w8 [(9, 0), (3, 1)]) = false := by decide

/-! ## The step: ports, holds, order -/

/-- A step held by EV is taken when EV accepts again (rule R53). -/
theorem test_step_hold_then_accept :
    let s := { pending [0x00, 0x01] with evAccept := some 0, input := [.evAccept (some 1)] }
    ((after (step s)).bind (fun t => after (step t))).map (fun t => (t.buf, t.out, t.evAccept)) =
      some ([0x01], [.desync 0x00], some 0) := by decide

/-- A CLR that arrives while a complete frame is pending wins over it: no event (rule R196). -/
theorem test_step_clr_wins : let s := { pending [0x00] with input := [.clr] }
    (after (step s)).map (fun t => (t.buf, t.out, t.pos, t.input)) = some ([], [], 1, []) := by decide

/-- CLR between two extraction steps on the bytes of one append: the 0x66 with a wrong literal is dropped, the five bytes behind it are
discarded (rule R183). -/
theorem test_step_clr_between_steps :
    (after (stepN 2 { pending [0x66, 0x00, 0x00, 0x00, 0x00, 0x00] with input := [.idle, .clr] })).map
      (fun t => (t.buf, t.out, t.pos)) = some ([], [.desync 0x66], 6) := by decide

/-- RX waits for the extraction to quiescence, a command does not (rules R131, R183). -/
theorem test_step_rx_waits :
    (after (step { pending [0x00] with input := [.rx 0x01] })).map (fun t => (t.buf, t.out, t.input)) =
      some ([], [.desync 0x00], [.rx 0x01]) ∧
    (after (step { pending [0x00] with input := [.cmd 0x6 (.number 0x05), .rx 0x01] })).map (fun t => (t.buf, t.out, t.input)) =
      some ([0x00], [], [.rx 0x01]) := by decide

/-- RX blocked by a full BUF behind a hold: the chunk stays, CMD overtakes it (rule R54). -/
theorem test_step_rx_blocked :
    takeTransaction false [.push [0x01], .rx 0x02, .cmd 0x6 (.number 0x05)] =
      some (.cmd 0x6 (.number 0x05), [.push [0x01], .rx 0x02]) := by
  decide

/-- A run shows no result from before its RST (rule R182). -/
theorem test_run_observes_itself :
    (after (exec (.acks 0x01) .reset)).bind (fun s => (after (run [.acks 0x02] s)).map (fun t => (observe s t).results)) =
      some [⟨.acks 0x02, .bytes [0x55, 0x4F, 0x4B, 0x53, 0x02]⟩] := by decide

/-! ## Witnesses: states and operands that meet the hypotheses of the obligations -/

theorem witness_ClrDiscardsPendingBytesSilently : CountsAgree (pending [0x88, 0x01]) := rfl

theorem witness_DecodeOfEncode : (Instr.xuds 0xFF).wf = true ∧ (Instr.xnoise 0x00).wf = true ∧
    (Instr.volt 0xFFFF).wf = true := by decide

theorem witness_EncodeOfDecode : decode (.leader 0xFF) = .ok (.xuds 0xFF) ∧ decode (.op 0xF (.raw 0)) = .ok (.volt 0) ∧
    decode .pin = .ok .rst := ⟨rfl, rfl, rfl⟩

theorem witness_StepRuns_extract : let s := pending [0x88, 0x01, 0x00, 0x89]
    (fdStep s.buf = .progress (.telemetry88 0x01 [] true [0x88, 0x01, 0x00, 0x89]) 4) ∧ evAccepts s = true ∧
    decodeFront s.buf = .ok .x88 := by
  refine ⟨by decide, by decide, rfl⟩

theorem witness_StepRuns_transactions :
    quiescent State.reset.buf = true ∧ rxOpen State.reset = true ∧
    decodeCmd 0x3 (.bytes []) = .ok (.csum []) ∧
    (∃ s : State, evAccepts s = false ∧ quiescent s.buf = false ∧ rxOpen s = false ∧
      s.input = [.push [0x01]] ++ .clr :: [.rx 0x02]) :=
  ⟨by decide, by decide, rfl,
   { pending [0x00] with cfg := { Config.placeholder with bufCap := some 1 }, evAccept := some 0,
                         input := [.push [0x01], .clr, .rx 0x02] },
   by decide, by decide, by decide, rfl⟩

theorem witness_ReservedCodes : let s := { pending [0x00] with evAccept := some 0, input := [.cmd 0x2 (.number 0x01)] }
    (0x2 : OpCode).toNat ≤ 2 ∧ refusal (step s) = some (.reservedCode 0x2) ∧
    refusal (step { s with input := [.cmd 0x0 (.raw 0)] }) = some (.reservedCode 0x0) := by decide

/-- One refused step for each situation of rule R194 and each assumption on a port. -/
theorem witness_StepRefuses :
    refusal (step { State.reset with input := [.push [0x01]], cfg := { Config.placeholder with bufCap := some 258 } }) =
      some .bufferTooSmall ∧
    refusal (step { State.reset with input := [.cmd 0x0 .none] }) = some (.reservedCode 0x0) ∧
    refusal (step { State.reset with input := [.cmd 0x3 (.number 0x00)] }) = some (.wrongOperands 0x3) ∧
    refusal (step { State.reset with input := [.cmd 0xC (.raw 0)], cfg := { Config.placeholder with tempA := table .w8 [] } }) =
      some (.malformedTable .tempA) ∧
    refusal (step { State.reset with input := [.cmd 0x3 (.bytes [0x01])], cfg := { Config.placeholder with csumMaxLen := some 0 } }) =
      some .operandTooLong ∧
    refusal (step { State.reset with input := [.cmd 0x5 (.frame 0x01 0x02 0x03 [0x04])], cfg := { Config.placeholder with buildMaxData := some 0 } }) =
      some .operandTooLong := by decide

theorem witness_TelemetryStep : let s := pending (t88Body 0x01 (List.replicate 255 0x00) ++ [0x88] ++ [0x00])
    (List.replicate 255 (0x00 : Byte)).length ≤ 255 ∧ evAccepts s = true ∧
    s.buf = t88Body 0x01 (List.replicate 255 0x00) ++ [0x88] ++ [0x00] := ⟨Nat.le_of_eq List.length_replicate, rfl, rfl⟩

theorem witness_ScreenRequestStep :
    evAccepts (pending ([0x66, 0x53, 0x43, 0x52, 0x5F, 0xFF] ++ [0x88])) = true ∧
    ([0x53, 0x43, 0x52, 0x00] : List Byte) ≠ [0x53, 0x43, 0x52, 0x5F] ∧
    evAccepts (pending ([0x66, 0x53, 0x43, 0x52, 0x00, 0x05] ++ [])) = true := by decide

theorem witness_ConfigStep : (List.replicate 254 (0x00 : Byte)).length ≤ 254 ∧
    evAccepts (pending (c77Body 0x09 (List.replicate 254 0x00) ++ [0x77] ++ [])) = true ∧
    evAccepts (pending ([0x77, 0x09, 0x00] ++ [])) = true := ⟨Nat.le_of_eq List.length_replicate, rfl, rfl⟩

/-- The longest and the shortest UDS frame. -/
theorem witness_UdsStep :
    (128 ≤ (0xFF : Byte).toNat ∧ (0xFF : Byte) ≠ 0x88 ∧
      (0xFF : Byte).toNat % 64 = ((some (0x61 : Byte)).toList ++ List.replicate 62 (0x00 : Byte)).length) ∧
    (128 ≤ (0x80 : Byte).toNat ∧ (0x80 : Byte) ≠ 0x88 ∧
      (0x80 : Byte).toNat % 64 = ((none : Option Byte).toList ++ ([] : List Byte)).length) ∧
    evAccepts (pending ([0x80, 0xF1, 0x28] ++ (none : Option Byte).toList ++ [] ++ [0x99] ++ [])) = true := by decide

theorem witness_NoiseStep : (0x7F : Byte).toNat < 128 ∧ (0x7F : Byte) ≠ 0x66 ∧ (0x7F : Byte) ≠ 0x77 ∧
    evAccepts (pending ([0x7F] ++ [])) = true ∧
    (∀ g ∈ ([0x00, 0x65, 0x67, 0x76, 0x78] : List Byte), g.toNat < 128 ∧ g ≠ 0x66 ∧ g ≠ 0x77) ∧
    State.reset.buf = [] ∧ EvAlways State.reset ∧ CapacityOk State.reset :=
  ⟨by decide, by decide, by decide, by decide, by decide, rfl, rfl, rfl⟩

/-- Each wait condition at the last length that waits. -/
theorem witness_Waits :
    fdStep [0x88, 0x01] = .wait ∧ fdStep [0x88, 0x01, 0x00] = .wait ∧ fdStep [0x66, 0x00, 0x00, 0x00, 0x00] = .wait ∧
    fdStep [0x77, 0x09] = .wait ∧ fdStep [0x77, 0x09, 0x01] = .wait ∧ fdStep [0x80, 0x01, 0x02] = .wait := by decide

theorem witness_Waits_exec : decodeFront [0x88, 0x01] = .ok .x88 ∧ WaitCondition [0x88, 0x01] :=
  ⟨rfl, .inl ⟨rfl, .inl (by decide)⟩⟩

theorem witness_Held : let s := { pending [0x00] with evAccept := some 0 }
    decodeFront s.buf = .ok (.xnoise 0x00) ∧ evAccepts s = false := ⟨rfl, by decide⟩

theorem witness_ChecksumFlag : fdStep [0x88, 0x01, 0x00, 0x88] =
      .progress (.telemetry88 0x01 [] false [0x88, 0x01, 0x00, 0x88]) 4 ∧
    Event.checksumOk? (.telemetry88 0x01 [] false [0x88, 0x01, 0x00, 0x88]) = some false := by decide

/-- Each fault code, and each cause of code 1. -/
theorem witness_Faults :
    (fdStep [0x00] = .progress (.desync 0x00) 1 ∧
      fdStep [0x66, 0x53, 0x43, 0x52, 0x00, 0x05] = .progress (.desync 0x66) 1 ∧
      fdStep [0x77, 0x09, 0x00] = .progress (.desync 0x77) 1 ∧ (Event.desync 0x77).fault = 1) ∧
    (fdStep [0x80, 0x01, 0x02, 0x00] = .progress (.udsFrame 0x01 0x02 none [] false [0x80, 0x01, 0x02, 0x00]) 4 ∧
      (Event.udsFrame 0x01 0x02 none [] false [0x80, 0x01, 0x02, 0x00]).fault = 2) ∧
    (fdStep [0x80, 0x01, 0x02, 0x83] = .progress (.udsFrame 0x01 0x02 none [] true [0x80, 0x01, 0x02, 0x83]) 4 ∧
      (Event.udsFrame 0x01 0x02 none [] true [0x80, 0x01, 0x02, 0x83]).fault = 0) := by decide

theorem witness_Decisions : fdStep ([0x77] ++ [0x09]) = .wait ∧ fdStep [0x77, 0x09] = .wait ∧
    fdStep [0x77, 0x09, 0x00] = .progress (.desync 0x77) 1 := by decide

theorem witness_QuiescentBound : quiescent (0x88 :: [0x01, 0x02]) = true ∧ classify 0x88 = .t88 ∧
    quiescent (0x77 :: [0x01]) = true ∧ quiescent (0xFF :: [0x01]) = true ∧ quiescent (0x66 :: [0x01]) = true := by decide

theorem witness_Push : CapacityOk State.reset ∧ EvAlways State.reset ∧
    CapacityOk { State.reset with cfg := { Config.placeholder with bufCap := some 259 }, evAccept := some 0 } :=
  ⟨rfl, rfl, rfl⟩

theorem witness_WellFormedStream :
    (∀ f ∈ [WireFrame.t88 0x01 [], .s66 0x05, .c77 0x02 [0x10], .uds 0xC4 0xF1 0x28 0x61 [0x01, 0x11, 0x22],
      .udsShort 0x80 0xF1 0x28], f.wf = true) ∧
    State.reset.buf = [] ∧ EvAlways State.reset ∧ CapacityOk State.reset := ⟨by decide, rfl, rfl, rfl⟩

/-- The longest frames of rule R77. -/
theorem witness_WellFormedStream_longest :
    ∃ p q : List Byte, p.length = 255 ∧ (WireFrame.t88 0x01 p).wf = true ∧ q.length = 254 ∧
      (WireFrame.c77 0x02 q).wf = true := by
  obtain ⟨p, hp⟩ : ∃ p : List Byte, p.length = 255 := ⟨List.replicate 255 0, List.length_replicate⟩
  obtain ⟨q, hq⟩ : ∃ q : List Byte, q.length = 254 := ⟨List.replicate 254 0, List.length_replicate⟩
  exact ⟨p, q, hp, decide_eq_true (Nat.le_of_eq hp), hq, decide_eq_true (Nat.le_of_eq hq)⟩

theorem witness_NoiseBeforeAFrame : (∀ g ∈ ([0x00, 0x7F] : List Byte), noiseByte g = true) ∧
    (WireFrame.udsShort 0x80 0xF1 0x28).wf = true ∧
    5 ≤ ((WireFrame.udsShort 0x80 0xF1 0x28).bytes ++ [(0x00 : Byte)]).length := by decide

theorem witness_OneCorruptedByte : (WireFrame.t88 0x01 [0xAA]).wf = true ∧ 3 < (WireFrame.t88 0x01 [0xAA]).bytes.length ∧
    (WireFrame.t88 0x01 [0xAA]).bytes[3]? ≠ some 0xAB ∧ (∀ screen, WireFrame.t88 0x01 [0xAA] ≠ .s66 screen) :=
  ⟨by decide, by decide, by decide, by intro s h; cases h⟩

theorem witness_Invariant : Inv State.reset ∧ (after (step { State.reset with input := [.rx 0x00] })).isSome = true :=
  ⟨⟨rfl, (fun _ h => nomatch h), (fun _ h => nomatch h)⟩, by decide⟩

theorem witness_AtRest : AtRest { pending [0x88] with input := [.push [0x01]] } ∧
    (after (step { pending [0x88] with input := [.push [0x01]] })).isSome = true :=
  ⟨⟨rfl, rfl, by decide, by intro n; simp, by intro b; simp⟩, by decide⟩

theorem witness_NoByteLost : (after (exec (.push [0x01]) .reset)).isSome = true ∧ Instr.push [0x01] ≠ .clr ∧
    Instr.push [0x01] ≠ .rst := by decide

theorem witness_PureUnits : let u := { pending [0x88] with pos := 3 }
    State.reset.cfg = u.cfg ∧
    (after (exec (.acks 0x05) .reset)).map State.res =
      some (State.reset.res ++ [⟨.acks 0x05, .bytes [0x55, 0x4F, 0x4B, 0x53, 0x05]⟩]) := by decide

theorem witness_CkLimits : let s := { State.reset with cfg := { Config.placeholder with csumMaxLen := some 2, buildMaxData := some 1 } }
    fits s.cfg.csumMaxLen ([0x05, 0x05] : List Byte).length = true ∧
    fits s.cfg.buildMaxData ([0x01] : List Byte).length = true := by decide

theorem witness_Verify : ([0x05, 0x05] : List Byte) = [0x05] ++ [0x05] ∧ 1 ≤ ([0x05] : List Byte).length ∧
    ([0x00] : List Byte).length < 2 := by decide

theorem witness_VerifyOfBuild :
    ((after (exec (.build 0x28 0xF1 0x3E [0x01]) .reset)).map State.res =
      some (State.reset.res ++ [⟨.build 0x28 0xF1 0x3E [0x01], .bytes [0x83, 0x28, 0xF1, 0x3E, 0x01, 0xDB]⟩])) ∧
    fits State.reset.cfg.csumMaxLen 6 = true := by decide

theorem witness_OneChangedByte : 1 ≤ ([0x05] : List Byte).length ∧ 1 < ([0x05] ++ [sum8 [0x05]]).length ∧
    ([0x05] ++ [sum8 [0x05]])[1]? ≠ some (0x06 : Byte) ∧ List.Perm ([0x05, 0x06] : List Byte) [0x06, 0x05] :=
  ⟨by decide, by decide, by decide, List.Perm.swap _ _ _⟩

theorem witness_BuildAndDecoder : (List.replicate 61 (0x00 : Byte)).length ≤ 61 ∧
    (List.replicate 61 (0x00 : Byte)).length ≠ 6 ∧ (List.replicate 6 (0x00 : Byte)).length = 6 := by simp

theorem witness_TablesWellFormed : tableWf fixtures.cfg fixtures.cfg.tempA = true ∧
    tableWf fixtures.cfg fixtures.cfg.tempB = true ∧ tableWf fixtures.cfg fixtures.cfg.press = true ∧
    tableWf fixtures.cfg fixtures.cfg.volt = true := by decide

/-- A bracket of a well-formed table, and a raw value in it. -/
theorem witness_Bracket : [(⟨1000, 0⟩ : Breakpoint), ⟨40000, 1500⟩] <:+: fixtures.cfg.volt.points ∧
    ((1000 : Nat) : Int) ≤ 39999 ∧ (39999 : Int) < ((40000 : Nat) : Int) ∧
    interp 39999 fixtures.cfg.volt.points = some 1500 :=
  ⟨⟨[⟨0, -500⟩], [⟨65535, 2000⟩], by decide⟩, by decide, by decide, by decide⟩

theorem witness_Monotonic : fixtures.cfg.tempA.points.Pairwise (fun p q => p.raw < q.raw) ∧
    fixtures.cfg.tempA.points.Pairwise (fun p q => p.phys ≤ q.phys) ∧
    interp 51 fixtures.cfg.tempA.points = some 1 ∧ interp 99 fixtures.cfg.tempA.points = some 25 ∧
    (table .w8 [(0, 5), (9, -5)]).points.Pairwise (fun p q => q.phys ≤ p.phys) := by decide

theorem witness_Units : isCk (.csum []) = true ∧ isCal (.volt 0) = true ∧ (after (exec (.csum []) .reset)).isSome = true ∧
    (after (exec (.volt 0) .reset)).isSome = true ∧ decodeLeader 0xFF = .xuds 0xFF := by decide

/-- A run with an operation of every kind, and a second state that differs in everything the run must not show. -/
theorem witness_Run : let ops := [Instr.push [0x88], .clr, .verify [0x00], .volt 9]
    RunOps ops ∧ EvAlways fixtures ∧ CapacityOk fixtures ∧ TablesWellFormed fixtures ∧
    (∀ i ∈ ops, withinLimits fixtures.cfg i = true) ∧ (after (run ops fixtures)).isSome = true ∧
    (let u := { fixtures with buf := [0x00], pos := 3, res := [⟨.acks 0x01, .bytes []⟩], input := [.clr] }
     fixtures.cfg = u.cfg ∧ EvAlways u) :=
  ⟨by unfold RunOps; decide, rfl, rfl, by intro t; cases t <;> decide, by decide, by decide, rfl, rfl⟩

/-- A chain of one extraction step that leaves bytes, and a byte that RX can take. -/
theorem witness_ControlLands :
    (∃ t, Extraction (pending [0x00, 0x01]) [.desync 0x00] t ∧ t.buf = [0x01]) ∧
    quiescent State.reset.buf = true ∧ rxOpen State.reset = true ∧ CapacityOk State.reset ∧
    decodeCmd 0x6 (.number 0x05) = .ok (.acks 0x05) :=
  ⟨⟨_, .step (k := 1) (by decide) (by decide) (.done _), rfl⟩, by decide, by decide, rfl, rfl⟩

theorem witness_PushIsItsActions : let s := pending [0x00, 0x88]
    EvAlways s ∧ CapacityOk s ∧ s.input = [] ∧ (after (exec (.push [0x01, 0x00]) s)).isSome = true :=
  ⟨rfl, rfl, rfl, by decide⟩

theorem witness_Flowing : let s := { pending [0x00] with cfg := { Config.placeholder with bufCap := some 259 }, input := [.rx 0x01] }
    Flowing s ∧ (after (step s)).isSome = true :=
  ⟨⟨rfl, rfl, by decide, by intro n; simp⟩, by decide⟩

end Sys2Proof.Tests
end

/-! ## Proofs of the encoding family (30_encoding.md) -/
section
namespace Sys2Proof.Machine

/-- The top bit of a byte is the test for `h ≥ 0x80` (rule R61). -/
theorem getLsbD_seven_iff {h : Byte} : h.getLsbD 7 = true ↔ 128 ≤ h.toNat := by
  have hmsb : h.msb = h.getLsbD 7 := BitVec.msb_eq_getLsbD_last h
  rw [← hmsb, BitVec.msb_eq_decide, decide_eq_true_iff]

/-! One row of the table of rule R61 each. -/

theorem classify_eq_t88_iff {h : Byte} : classify h = .t88 ↔ h = 0x88 :=
  ⟨classify_t88, by rintro rfl; rfl⟩

theorem classify_eq_s66_iff {h : Byte} : classify h = .s66 ↔ h = 0x66 :=
  ⟨classify_s66, by rintro rfl; rfl⟩

theorem classify_eq_c77_iff {h : Byte} : classify h = .c77 ↔ h = 0x77 :=
  ⟨classify_c77, by rintro rfl; rfl⟩

/-- The test for `0x88` comes before the test of the top bit, so it alone is taken out of the upper half. -/
theorem classify_eq_uds_iff {h : Byte} : classify h = .uds ↔ 128 ≤ h.toNat ∧ h ≠ 0x88 := by
  unfold classify
  split_ifs with h88 h66 h77 hbit
  · simp [h88]
  · simp [h66]
  · simp [h77]
  · exact iff_of_true rfl ⟨getLsbD_seven_iff.mp hbit, h88⟩
  · exact iff_of_false nofun fun hu => hbit (getLsbD_seven_iff.mpr hu.left)

/-- The tests for `0x66` and `0x77` come before the test of the top bit, so they are taken out of the lower half. -/
theorem classify_eq_noise_iff {h : Byte} :
    classify h = .noise ↔ h.toNat < 128 ∧ h ≠ 0x66 ∧ h ≠ 0x77 := by
  unfold classify
  split_ifs with h88 h66 h77 hbit
  · simp [h88]
  · simp [h66]
  · simp [h77]
  · exact iff_of_false nofun fun hn => hn.left.not_ge (getLsbD_seven_iff.mp hbit)
  · exact iff_of_true rfl ⟨not_le.mp (mt getLsbD_seven_iff.mpr hbit), h66, h77⟩

/-- The class of a leader says which extraction step the decoder gives (rule R132). -/
theorem decodeLeader_of_classify {h : Byte} :
    (classify h = .t88 → decodeLeader h = .x88) ∧ (classify h = .s66 → decodeLeader h = .x66) ∧
    (classify h = .c77 → decodeLeader h = .x77) ∧ (classify h = .uds → decodeLeader h = .xuds h) ∧
    (classify h = .noise → decodeLeader h = .xnoise h) := by
  unfold decodeLeader
  refine ⟨?_, ?_, ?_, ?_, ?_⟩ <;> intro hc <;> rw [hc]

/-- How often a class occurs over the byte values is the size of the set of byte values in it. -/
theorem count_classify_eq_card (c : WireClass) :
    ((List.range 256).map (fun n => classify (BitVec.ofNat 8 n))).count c =
      ((Finset.range 256).filter (fun n => classify (BitVec.ofNat 8 n) = c)).card := by
  rw [← Nat.count_eq_card_filter_range, Nat.count, List.count, List.countP_map]
  rfl

/-- UDS is the upper half without `0x88`. -/
theorem filter_classify_uds :
    (Finset.range 256).filter (fun n => classify (BitVec.ofNat 8 n) = .uds) =
      (Finset.Ico 128 256).erase 0x88 := by
  ext n
  simp only [Finset.mem_filter, Finset.mem_range, Finset.mem_erase, Finset.mem_Ico,
    classify_eq_uds_iff, ne_eq, ← BitVec.toNat_inj, BitVec.ofNat_eq_ofNat,
    BitVec.toNat_ofNat]
  omega

/-- NOISE is the lower half without `0x66` and `0x77`. -/
theorem filter_classify_noise :
    (Finset.range 256).filter (fun n => classify (BitVec.ofNat 8 n) = .noise) =
      ((Finset.range 128).erase 0x66).erase 0x77 := by
  ext n
  simp only [Finset.mem_filter, Finset.mem_range, Finset.mem_erase,
    classify_eq_noise_iff, ne_eq, ← BitVec.toNat_inj, BitVec.ofNat_eq_ofNat,
    BitVec.toNat_ofNat]
  omega

theorem count_classify_uds :
    ((List.range 256).map (fun n => classify (BitVec.ofNat 8 n))).count .uds = 127 := by
  rw [count_classify_eq_card, filter_classify_uds, Finset.card_erase_of_mem (by simp), Nat.card_Ico]

theorem count_classify_noise :
    ((List.range 256).map (fun n => classify (BitVec.ofNat 8 n))).count .noise = 126 := by
  rw [count_classify_eq_card, filter_classify_noise, Finset.card_erase_of_mem (by simp),
    Finset.card_erase_of_mem (by simp), Finset.card_range]

/-- Settles O4: one `↔` per row of the table of rule R61, and the two half ranges counted without the values that earlier
tests take. -/
theorem leaderClassesPartitionTheByteValues : Obligations.LeaderClassesPartitionTheByteValues :=
  ⟨fun _ => ⟨classify_eq_t88_iff, classify_eq_s66_iff, classify_eq_c77_iff, classify_eq_uds_iff,
    classify_eq_noise_iff, decodeLeader_of_classify⟩, count_classify_uds, count_classify_noise⟩

end Sys2Proof.Machine
end

/-! ## Proofs of the checksum family (40_checksum_unit.md) -/
section
namespace Sys2Proof.Machine

/-- A CK operation within its length limit delivers its result. -/
theorem ckLimited_of_fits {limit : Option Nat} {n : Nat} (h : fits limit n = true) (op : Instr) (r : Result)
    (s : State) : ckLimited limit n op r s = .next (deliver op r s) :=
  ckLimited_next.mpr ⟨h, rfl⟩

/-- The sum the statements speak of, brought to a byte, is `sum8` (rule R90). -/
theorem sum8_toNat_eq_byteSum (s : List Byte) : (sum8 s).toNat = byteSum s % 256 := sum8_toNat s

/-- The length test comes before the comparison (rule R91). -/
theorem verifyBit_of_length_lt_two {bytes : List Byte} (h : bytes.length < 2) : verifyBit bytes = false :=
  if_pos h

/-- From two bytes on, VERIFY compares the last byte with the sum of those before it (rule R91). -/
theorem verifyBit_concat_iff {body : List Byte} (h : body ≠ []) (c : Byte) :
    verifyBit (body ++ [c]) = true ↔ c.toNat = byteSum body % 256 := by
  rw [verifyBit_concat body c h, beq_iff_eq, ← BitVec.toNat_inj, sum8_toNat_eq_byteSum]

/-- The mask keeps `n + 2` modulo 64, which lies below the bit that is set (rule R92). -/
theorem buildHeader_toNat (n : Nat) : (buildHeader n).toNat = 128 + (n + 2) % 64 := by
  have hmask : (n + 2) % 256 &&& 63 = (n + 2) % 64 := by
    rw [Nat.and_two_pow_sub_one_eq_mod _ 6]
    omega
  have hbit : 128 ||| (n + 2) % 64 = 128 + (n + 2) % 64 :=
    (Nat.two_pow_add_eq_or_of_lt (i := 7) (by omega) 1).symm
  calc (buildHeader n).toNat = 128 ||| ((n + 2) % 256 &&& 63) := by
        simp [buildHeader, BitVec.toNat_or, BitVec.toNat_and]
    _ = 128 + (n + 2) % 64 := by rw [hmask, hbit]

/-- The four bytes before the data and the checksum byte behind it (rule R92). -/
theorem buildFrame_length (dst src sid : Byte) (data : List Byte) :
    (buildFrame dst src sid data).length = data.length + 5 := by
  simp [buildFrame, buildBody]

/-- Settles O39: the result is `verifyBit`, which is 0 below two bytes and on a closed sequence compares its last byte. -/
theorem verifyComparesTheLastByte : Obligations.VerifyComparesTheLastByte := by
  intro s bytes hfits
  refine ⟨verifyBit bytes, rfl, ckLimited_of_fits hfits _ _ s, verifyBit_of_length_lt_two, ?_⟩
  rintro body c rfl hbody
  exact verifyBit_concat_iff (List.ne_nil_of_length_pos hbody) c

/-- Settles O40: the header is `buildHeader`, the checksum the `sum8` of the body, and the result `buildFrame`. -/
theorem buildMakesTheFrame : Obligations.BuildMakesTheFrame := by
  intro s dst src sid data hfits
  exact ⟨buildHeader data.length, sum8 (buildBody dst src sid data), rfl, buildHeader_toNat _, rfl,
    sum8_toNat_eq_byteSum _, buildFrame_length dst src sid data, ckLimited_of_fits hfits _ _ s⟩

end Sys2Proof.Machine
end

/-! ## Proofs of the encoding: round trips and reserved codes (30_encoding.md) -/
section
namespace Sys2Proof.Machine

/-- The well-formedness of an XUDS header is the class of rule R61, row 4. -/
theorem udsHeader_iff {h : Byte} : udsHeader h = true ↔ classify h = .uds := by
  rw [classify_eq_uds_iff, udsHeader, Bool.and_eq_true_iff, getLsbD_seven_iff, bne_iff_ne]

/-- The well-formedness of an XNOISE byte is the class of rule R61, row 5. -/
theorem noiseByte_iff {g : Byte} : noiseByte g = true ↔ classify g = .noise := by
  rw [classify_eq_noise_iff, noiseByte, Bool.and_eq_true_iff, Bool.and_eq_true_iff, Bool.not_eq_true',
    ← Bool.not_eq_true, getLsbD_seven_iff, bne_iff_ne, bne_iff_ne, not_le, and_assoc]

theorem decodeLeader_of_uds {h : Byte} (hc : classify h = .uds) : decodeLeader h = .xuds h := by
  simp only [decodeLeader, hc]

theorem decodeLeader_of_noise {h : Byte} (hc : classify h = .noise) : decodeLeader h = .xnoise h := by
  simp only [decodeLeader, hc]

/-- A leader is the word of the extraction step it selects (rule R61). -/
theorem encode_decodeLeader (h : Byte) : encode (decodeLeader h) = .leader h ∧ (decodeLeader h).wf = true := by
  unfold decodeLeader
  cases hc : classify h with
  | t88 => exact ⟨by rw [classify_t88 hc]; rfl, rfl⟩
  | s66 => exact ⟨by rw [classify_s66 hc]; rfl, rfl⟩
  | c77 => exact ⟨by rw [classify_c77 hc]; rfl, rfl⟩
  | uds => exact ⟨rfl, udsHeader_iff.mpr hc⟩
  | noise => exact ⟨rfl, noiseByte_iff.mpr hc⟩

/-- A code with its operands is the word of the operation it stands for (rule R72): each row of the table is read back from its own code. -/
theorem encode_of_decodeOp {code : OpCode} {operands : Operands} {i : Instr} (h : decodeOp code operands = .ok i) :
    encode i = .op code operands ∧ i.wf = true := by
  unfold decodeOp at h
  split at h <;> cases h
  all_goals
    rename_i hcode
    exact ⟨congrArg (Encoded.op · _) (BitVec.eq_of_toNat_eq hcode.symm), rfl⟩

/-- Settles O6: the leaders of XUDS and XNOISE are read back by their class, every other word by its row. -/
theorem decodeOfEncodeIsTheInstruction : Obligations.DecodeOfEncodeIsTheInstruction := by
  intro i hwf
  cases i with
  | xuds header => exact congrArg Except.ok (decodeLeader_of_uds (udsHeader_iff.mp hwf))
  | xnoise byte => exact congrArg Except.ok (decodeLeader_of_noise (noiseByte_iff.mp hwf))
  | interp t raw => cases t <;> rfl
  | _ => rfl

/-- Settles O7: space by space, a leader by its class and a code by its row. -/
theorem encodeOfDecodeIsTheWord : Obligations.EncodeOfDecodeIsTheWord := by
  intro w i h
  cases w with
  | leader b => cases h; exact encode_decodeLeader b
  | op code operands => exact encode_of_decodeOp h
  | pin => cases h; exact ⟨rfl, rfl⟩

/-- Settles O5: the cover is a finite table, read byte by byte. -/
theorem disjointCoverTakesEveryLeaderOnce : Obligations.DisjointCoverTakesEveryLeaderOnce := by
  unfold Obligations.DisjointCoverTakesEveryLeaderOnce
  decide

/-- Settles O8: each word is evaluated by its decoder. -/
theorem wordsOfTheTablesDecode : Obligations.WordsOfTheTablesDecode :=
  ⟨rfl, rfl, rfl, rfl, rfl, rfl, rfl, rfl, rfl, rfl⟩

end Sys2Proof.Machine
end

/-! ## The front of BUF: what an extraction step finds there (30_encoding.md section 1, 42_frame_decoder.md section 2) -/
section
namespace Sys2Proof.Machine

theorem byte_lt (b : Byte) : b.toNat < 256 := b.isLt

/-- The causes of `FramingDesync`: why the first byte is dropped alone (rule R191). -/
def DropCause (B : List Byte) (h : Byte) : Prop :=
  classify h = .noise ∨ (h = 0x66 ∧ 6 ≤ B.length ∧ (B.drop 1).take 4 ≠ [0x53, 0x43, 0x52, 0x5F]) ∨
    (h = 0x77 ∧ B[2]? = some 0x00)

/-- What can stand in BUF: nothing, the beginning of a frame, a whole candidate with whatever follows it, or a byte to drop. -/
inductive Front : List Byte → Prop
  | empty : Front []
  | waiting {B : List Byte} (hw : WaitCondition B) : Front B
  | frame {e : Event} (hs : RecordSound e) (hk : e.kind ≠ 0) (C : List Byte) : Front (e.raw ++ C)
  | dropped {h : Byte} {t : List Byte} (hd : DropCause (h :: t) h) : Front (h :: t)

/-! ### Waiting -/

theorem x88_wait {B : List Byte} (h : B.length < 3 ∨ B.length < (byteAt B 2).toNat + 4) : x88 B = .wait := by
  unfold x88
  by_cases h3 : B.length < 3
  · rw [if_pos h3]
  · rw [if_neg h3, if_pos (h.resolve_left h3)]

theorem x77_wait {B : List Byte}
    (h : B.length < 3 ∨ (1 ≤ (byteAt B 2).toNat ∧ B.length < (byteAt B 2).toNat + 3)) : x77 B = .wait := by
  unfold x77
  by_cases h3 : B.length < 3
  · rw [if_pos h3]
  · obtain ⟨hpos, hlt⟩ := h.resolve_left h3
    rw [if_neg h3, if_neg (Nat.ne_of_gt hpos), if_pos hlt]

theorem xuds_wait {header : Byte} {B : List Byte} (h : B.length < udsLen header + 4) : xuds header B = .wait :=
  if_pos h

theorem fdStep_cons_of_uds {h : Byte} {t : List Byte} (hc : classify h = .uds) : fdStep (h :: t) = xuds h (h :: t) := by
  simp only [fdStep, hc]

theorem need_cons_of_uds {h : Byte} {t : List Byte} (hc : classify h = .uds) : need (h :: t) = some (udsLen h + 4) := by
  simp only [need, hc]

theorem fdStep_of_waitCondition {B : List Byte} (hw : WaitCondition B) : fdStep B = .wait := by
  cases B with
  | nil => simp [WaitCondition] at hw
  | cons b t =>
    simp only [WaitCondition, List.head?_cons, Option.some.injEq] at hw
    obtain ⟨rfl, h⟩ | ⟨rfl, h⟩ | ⟨rfl, h⟩ | ⟨h, rfl, hu, hlt⟩ := hw
    · exact x88_wait h
    · exact if_pos h
    · exact x77_wait h
    · rw [fdStep_cons_of_uds (udsHeader_iff.mp hu)]
      exact xuds_wait (by rwa [udsLen_eq_mod])

/-- A waiting buffer is shorter than its NEED (rules R70, R140). -/
theorem need_of_waitCondition {B : List Byte} (hw : WaitCondition B) : ∃ n, need B = some n ∧ B.length < n := by
  cases B with
  | nil => simp [WaitCondition] at hw
  | cons b t =>
    simp only [WaitCondition, List.head?_cons, Option.some.injEq] at hw
    obtain ⟨rfl, h⟩ | ⟨rfl, h⟩ | ⟨rfl, h⟩ | ⟨h, rfl, hu, hlt⟩ := hw
    · refine ⟨_, rfl, ?_⟩
      simp only [byteAt]
      split <;> omega
    · exact ⟨6, rfl, h⟩
    · refine ⟨_, rfl, ?_⟩
      by_cases h3 : (0x77 :: t : List Byte).length < 3
      · rwa [if_pos h3]
      · obtain ⟨hpos, hlt⟩ := h.resolve_left h3
        have hne : (byteAt (0x77 :: t) 2).toNat ≠ 0 := Nat.ne_of_gt hpos
        rwa [if_neg h3, if_neg hne]
    · exact ⟨_, need_cons_of_uds (udsHeader_iff.mp hu), by rwa [udsLen_eq_mod]⟩

theorem quiescent_of_waitCondition {B : List Byte} (hw : WaitCondition B) : quiescent B = true := by
  simp [quiescent, fdStep_of_waitCondition hw]

/-! ### A whole candidate -/

theorem toNat_ofNat_of_lt {n : Nat} (h : n < 256) : (BitVec.ofNat 8 n).toNat = n := by
  rw [BitVec.toNat_ofNat]
  exact Nat.mod_eq_of_lt h

/-- A slice behind three bytes and within the sequence that follows them. -/
theorem slice_after_three (a b c : Byte) (p C : List Byte) {j : Nat} (hj : j = p.length + 3) :
    slice (a :: b :: c :: (p ++ C)) 3 j = p := by
  subst hj
  simp [slice]

theorem fdStep_t88 (screen c : Byte) {p : List Byte} (C : List Byte) (hp : p.length ≤ 255) :
    fdStep (t88Body screen p ++ [c] ++ C) =
      .progress (.telemetry88 screen p (c == sum8 (t88Body screen p)) (t88Body screen p ++ [c])) (p.length + 4) := by
  have hlen : (BitVec.ofNat 8 p.length).toNat = p.length := toNat_ofNat_of_lt (by omega)
  have hcand : slice (t88Body screen p ++ [c] ++ C) 0 (p.length + 4) = t88Body screen p ++ [c] := by
    rw [slice_zero, List.take_left' (by simp [t88Body])]
  have hpayload : slice (t88Body screen p ++ [c]) 3 (3 + p.length) = p := slice_after_three _ _ _ p [c] (by omega)
  have hx : fdStep (t88Body screen p ++ [c] ++ C) = x88 (t88Body screen p ++ [c] ++ C) := rfl
  have htwo : byteAt (t88Body screen p ++ [c] ++ C) 2 = BitVec.ofNat 8 p.length := rfl
  rw [hx, x88, if_neg (by simp [t88Body]), htwo, hlen, if_neg (by simp [t88Body]), hcand]
  simp only [checksumOk_concat, hpayload]
  rfl

theorem fdStep_s66 (screen : Byte) (C : List Byte) :
    fdStep (encS66 screen ++ C) = .progress (.screenRequest66 screen (encS66 screen)) 6 := by
  have hx : fdStep (encS66 screen ++ C) = x66 (encS66 screen ++ C) := rfl
  have hlit : slice (encS66 screen ++ C) 1 5 = scrLiteral := rfl
  rw [hx, x66, if_neg (by simp [encS66, scrLiteral]), if_pos hlit]
  rfl

theorem fdStep_c77 (package c : Byte) {p : List Byte} (C : List Byte) (hp : p.length ≤ 254) :
    fdStep (c77Body package p ++ [c] ++ C) =
      .progress (.config77 package p (c == sum8 (c77Body package p)) (c77Body package p ++ [c])) (p.length + 4) := by
  have hlen : (BitVec.ofNat 8 (p.length + 1)).toNat = p.length + 1 := toNat_ofNat_of_lt (by omega)
  have hcand : slice (c77Body package p ++ [c] ++ C) 0 (p.length + 1 + 3) = c77Body package p ++ [c] := by
    rw [slice_zero, List.take_left' (by simp [c77Body])]
  have hpayload : slice (c77Body package p ++ [c]) 3 (p.length + 1 + 2) = p :=
    slice_after_three _ _ _ p [c] (by omega)
  have hx : fdStep (c77Body package p ++ [c] ++ C) = x77 (c77Body package p ++ [c] ++ C) := rfl
  have htwo : byteAt (c77Body package p ++ [c] ++ C) 2 = BitVec.ofNat 8 (p.length + 1) := rfl
  rw [hx, x77, if_neg (by simp [c77Body]), htwo, hlen, if_neg (by omega), if_neg (by simp [c77Body]), hcand]
  simp only [checksumOk_concat, hpayload]
  rfl

/-- A UDS frame without its checksum: the `sid` is there when the length bits are not 0 (rule R65). -/
def udsBody (header dst src : Byte) (sid : Option Byte) (data : List Byte) : List Byte :=
  [header, dst, src] ++ sid.toList ++ data

theorem udsBody_length {header dst src : Byte} {sid : Option Byte} {data : List Byte} :
    (udsBody header dst src sid data).length = (sid.toList ++ data).length + 3 := by
  simp [udsBody]

theorem fdStep_uds {header : Byte} (dst src c : Byte) {sid : Option Byte} {data : List Byte} (C : List Byte)
    (hu : classify header = .uds) (hsid : sid = none → data = [])
    (hL : header.toNat % 64 = (sid.toList ++ data).length) :
    fdStep (udsBody header dst src sid data ++ [c] ++ C) =
      .progress (.udsFrame dst src sid data (c == sum8 (udsBody header dst src sid data))
        (udsBody header dst src sid data ++ [c])) (header.toNat % 64 + 4) := by
  have hbody := udsBody_length (header := header) (dst := dst) (src := src) (sid := sid) (data := data)
  have hcand : slice (udsBody header dst src sid data ++ [c] ++ C) 0 (header.toNat % 64 + 2 + 2) =
      udsBody header dst src sid data ++ [c] := by
    rw [slice_zero, List.take_left' (by rw [List.length_append, hbody, hL]; rfl)]
  have hx : fdStep (udsBody header dst src sid data ++ [c] ++ C) =
      xuds header (udsBody header dst src sid data ++ [c] ++ C) := fdStep_cons_of_uds hu
  have hlen : ¬ (udsBody header dst src sid data ++ [c] ++ C).length < header.toNat % 64 + 2 + 2 := by
    rw [List.length_append, List.length_append, hbody, List.length_singleton]
    omega
  rw [hx, xuds, udsLen_eq_mod, if_neg hlen, hcand, hL]
  simp only [checksumOk_concat]
  cases sid with
  | none =>
    rw [hsid rfl]
    rfl
  | some sid =>
    have hdata : slice (udsBody header dst src (some sid) data ++ [c]) 4 (data.length + 1 + 3) = data := by
      simp [slice, udsBody]
    simp only [Option.toList_some, List.singleton_append, List.length_cons, Nat.add_one_ne_zero, if_false, hdata]
    rfl

theorem raw_ne_nil {e : Event} (hs : RecordSound e) : e.raw ≠ [] := by
  cases e with
  | desync b => exact List.cons_ne_nil _ _
  | telemetry88 screen p ok raw => obtain ⟨-, c, rfl, -⟩ := hs; exact List.cons_ne_nil _ _
  | screenRequest66 screen raw => cases hs; exact List.cons_ne_nil _ _
  | config77 package p ok raw => obtain ⟨-, c, rfl, -⟩ := hs; exact List.cons_ne_nil _ _
  | udsFrame dst src sid data ok raw => obtain ⟨-, header, c, -, -, rfl, -⟩ := hs; exact List.cons_ne_nil _ _

/-- The step on the bytes of a sound record of a frame makes that record again, whatever follows (rules R134 to R137). -/
theorem fdStep_frame {e : Event} (hs : RecordSound e) (hk : e.kind ≠ 0) (C : List Byte) :
    fdStep (e.raw ++ C) = .progress e e.raw.length := by
  cases e with
  | desync b => exact absurd rfl hk
  | telemetry88 screen p ok raw =>
    obtain ⟨hp, c, rfl, rfl⟩ := hs
    exact (fdStep_t88 screen c C hp).trans (by simp [Event.raw, t88Body])
  | screenRequest66 screen raw =>
    cases hs
    exact fdStep_s66 screen C
  | config77 package p ok raw =>
    obtain ⟨hp, c, rfl, rfl⟩ := hs
    exact (fdStep_c77 package c C hp).trans (by simp [Event.raw, c77Body])
  | udsFrame dst src sid data ok raw =>
    obtain ⟨hsid, header, c, hu, hL, rfl, rfl⟩ := hs
    refine (fdStep_uds dst src c C (udsHeader_iff.mp hu) hsid hL).trans ?_
    simp [Event.raw, udsBody, hL]
    omega

/-- The bytes of a frame are its NEED (rule R70). -/
theorem need_frame {e : Event} (hs : RecordSound e) (hk : e.kind ≠ 0) (C : List Byte) :
    need (e.raw ++ C) = some e.raw.length := by
  cases e with
  | desync b => exact absurd rfl hk
  | telemetry88 screen p ok raw =>
    obtain ⟨hp, c, rfl, -⟩ := hs
    have hlen : (BitVec.ofNat 8 p.length).toNat = p.length := toNat_ofNat_of_lt (by omega)
    change some (ite _ _ ((BitVec.ofNat 8 p.length).toNat + 4)) = _
    rw [hlen, if_neg (by simp)]
    simp [Event.raw, t88Body]
  | screenRequest66 screen raw =>
    cases hs
    rfl
  | config77 package p ok raw =>
    obtain ⟨hp, c, rfl, -⟩ := hs
    have hlen : (BitVec.ofNat 8 (p.length + 1)).toNat = p.length + 1 := toNat_ofNat_of_lt (by omega)
    change some (ite _ _ (ite ((BitVec.ofNat 8 (p.length + 1)).toNat = 0) _ ((BitVec.ofNat 8 (p.length + 1)).toNat + 3))) = _
    rw [hlen, if_neg (by simp), if_neg (by omega)]
    simp [Event.raw, c77Body]
  | udsFrame dst src sid data ok raw =>
    obtain ⟨-, header, c, hu, hL, rfl, -⟩ := hs
    refine (need_cons_of_uds (udsHeader_iff.mp hu)).trans ?_
    rw [udsLen_eq_mod, hL]
    simp [Event.raw]
    omega

/-! ### A byte to drop -/

theorem fdStep_dropped {h : Byte} {t : List Byte} (hd : DropCause (h :: t) h) :
    fdStep (h :: t) = .progress (.desync h) 1 := by
  obtain hn | ⟨rfl, hlen, hlit⟩ | ⟨rfl, hzero⟩ := hd
  · simp only [fdStep, hn, xnoise]
  · have hx : fdStep (0x66 :: t) = x66 (0x66 :: t) := rfl
    rw [hx, x66, if_neg (by omega)]
    exact if_neg hlit
  · have hx : fdStep (0x77 :: t) = x77 (0x77 :: t) := rfl
    have h3 : 2 < (0x77 :: t : List Byte).length := (List.getElem?_eq_some_iff.mp hzero).1
    rw [hx, x77, if_neg (by omega), byteAt, List.getD_eq_getElem?_getD, hzero]
    rfl

/-- The NEED of a byte to drop is there, and the cause is seen within it (rules R70, R191). -/
theorem need_dropped {h : Byte} {t : List Byte} (hd : DropCause (h :: t) h) :
    ∃ n, need (h :: t) = some n ∧ 1 ≤ n ∧ n ≤ (h :: t).length ∧ ∀ C, DropCause ((h :: t).take n ++ C) h := by
  obtain hn | ⟨rfl, hlen, hlit⟩ | ⟨rfl, hzero⟩ := hd
  · exact ⟨1, by simp only [need, hn], le_rfl, by simp, fun C => .inl hn⟩
  · refine ⟨6, rfl, by omega, hlen, fun C => .inr (.inl ⟨rfl, by simp at hlen ⊢; omega, ?_⟩)⟩
    simp only [List.length_cons] at hlen
    simpa [List.take_append_of_le_length, List.take_take, hlen, show 4 ≤ t.length by omega] using hlit
  · have h3 : 2 < (0x77 :: t : List Byte).length := (List.getElem?_eq_some_iff.mp hzero).1
    refine ⟨3, ?_, by omega, h3, fun C => .inr (.inr ⟨rfl, ?_⟩)⟩
    · change some (ite _ _ (ite ((byteAt (0x77 :: t) 2).toNat = 0) _ _)) = _
      rw [if_neg (by omega), byteAt, List.getD_eq_getElem?_getD, hzero]
      rfl
    · rw [List.getElem?_append_left (by simp at h3 ⊢; omega), List.getElem?_take_of_lt (by omega), hzero]

/-! ### Every buffer has one of these fronts -/

/-- A sequence longer than n is n bytes, one byte, and the rest. -/
theorem exists_split {n : Nat} {l : List Byte} (h : n < l.length) : ∃ p c C, l = p ++ [c] ++ C ∧ p.length = n :=
  ⟨l.take n, l[n], l.drop (n + 1), by simp, by simp; omega⟩

/-- A buffer with three bytes, by name. -/
theorem exists_three {b : Byte} {t : List Byte} (h : ¬ (b :: t).length < 3) : ∃ x l r, t = x :: l :: r := by
  match t, h with
  | x :: l :: r, _ => exact ⟨x, l, r, rfl⟩
  | [_], h => simp at h
  | [], h => simp at h

theorem front_t88 (t : List Byte) : Front (0x88 :: t) := by
  by_cases hw : WaitCondition (0x88 :: t)
  · exact .waiting hw
  obtain ⟨h3, hall⟩ := not_or.mp fun h => hw (.inl ⟨rfl, h⟩)
  obtain ⟨screen, len, r, rfl⟩ := exists_three h3
  obtain ⟨p, c, C, rfl, hp⟩ := exists_split (n := len.toNat) (l := r) (by simp at hall; omega)
  have hs : RecordSound (.telemetry88 screen p (c == sum8 (t88Body screen p)) (t88Body screen p ++ [c])) :=
    ⟨by have := byte_lt len; omega, c, rfl, rfl⟩
  have hB : (0x88 :: screen :: len :: (p ++ [c] ++ C) : List Byte) = t88Body screen p ++ [c] ++ C := by
    simp [t88Body, hp]
  rw [hB]
  exact .frame hs (by simp [Event.kind]) C

theorem front_c77 (t : List Byte) : Front (0x77 :: t) := by
  by_cases hw : WaitCondition (0x77 :: t)
  · exact .waiting hw
  obtain ⟨h3, hall⟩ := not_or.mp fun h => hw (.inr (.inr (.inl ⟨rfl, h⟩)))
  obtain ⟨package, len, r, rfl⟩ := exists_three h3
  by_cases hzero : len = 0x00
  · exact .dropped (.inr (.inr ⟨rfl, by rw [hzero]; rfl⟩))
  have hpos : 1 ≤ len.toNat := Nat.one_le_iff_ne_zero.mpr fun h => hzero (BitVec.eq_of_toNat_eq h)
  obtain ⟨p, c, C, rfl, hp⟩ := exists_split (n := len.toNat - 1) (l := r) (by simp at hall; omega)
  have hs : RecordSound (.config77 package p (c == sum8 (c77Body package p)) (c77Body package p ++ [c])) :=
    ⟨by have := byte_lt len; omega, c, rfl, rfl⟩
  have hB : (0x77 :: package :: len :: (p ++ [c] ++ C) : List Byte) = c77Body package p ++ [c] ++ C := by
    simp [c77Body, show p.length + 1 = len.toNat by omega]
  rw [hB]
  exact .frame hs (by simp [Event.kind]) C

theorem front_s66 (t : List Byte) : Front (0x66 :: t) := by
  by_cases hw : WaitCondition (0x66 :: t)
  · exact .waiting hw
  have hlen : ¬ (0x66 :: t : List Byte).length < 6 := fun h => hw (.inr (.inl ⟨rfl, h⟩))
  obtain ⟨lit, screen, C, rfl, hlit⟩ := exists_split (n := 4) (l := t) (by simp at hlen; omega)
  by_cases hscr : lit = scrLiteral
  · rw [hscr]
    exact .frame (e := .screenRequest66 screen (encS66 screen)) rfl (by simp [Event.kind]) C
  · exact .dropped (.inr (.inl ⟨rfl, Nat.le_of_not_lt hlen, by simpa [← hlit, scrLiteral] using hscr⟩))

theorem front_uds {h : Byte} (hu : udsHeader h = true) (t : List Byte) : Front (h :: t) := by
  by_cases hw : WaitCondition (h :: t)
  · exact .waiting hw
  have hlen : ¬ (h :: t).length < h.toNat % 64 + 4 := fun hl => hw (.inr (.inr (.inr ⟨h, rfl, hu, hl⟩)))
  obtain ⟨dst, src, r, rfl⟩ := exists_three (b := h) (t := t) (by omega)
  obtain ⟨q, c, C, rfl, hq⟩ := exists_split (n := h.toNat % 64) (l := r) (by simp at hlen; omega)
  have hB : ∀ sid data, q = Option.toList sid ++ data →
      (h :: dst :: src :: (q ++ [c] ++ C) : List Byte) = udsBody h dst src sid data ++ [c] ++ C := by
    rintro sid data rfl
    simp [udsBody]
  have hf : ∀ sid data, q = Option.toList sid ++ data → (sid = none → data = []) →
      Front (h :: dst :: src :: (q ++ [c] ++ C)) := by
    intro sid data hsplit hsid
    rw [hB sid data hsplit]
    exact .frame (e := .udsFrame dst src sid data _ _) ⟨hsid, h, c, hu, by rw [← hq, hsplit], rfl, rfl⟩
      (by simp [Event.kind]) C
  cases q with
  | nil => exact hf none [] rfl fun _ => rfl
  | cons sid data => exact hf (some sid) data rfl nofun

theorem front (B : List Byte) : Front B := by
  cases B with
  | nil => exact .empty
  | cons b t =>
    cases hc : classify b with
    | t88 => exact classify_t88 hc ▸ front_t88 t
    | s66 => exact classify_s66 hc ▸ front_s66 t
    | c77 => exact classify_c77 hc ▸ front_c77 t
    | uds => exact front_uds (udsHeader_iff.mpr hc) t
    | noise => exact .dropped (.inl hc)

end Sys2Proof.Machine
end

/-! ## What the step decides on each front (42_frame_decoder.md sections 2, 4 and 5, 60_exceptions.md section 1) -/
section
namespace Sys2Proof.Machine

/-! ### NEED and the three results of a step -/

theorem fdStep_eq_idle_iff {B : List Byte} : fdStep B = .idle ↔ B = [] := by
  refine ⟨fun h => ?_, by rintro rfl; rfl⟩
  cases front B with
  | empty => rfl
  | waiting hw => rw [fdStep_of_waitCondition hw] at h; cases h
  | frame hs hk C => rw [fdStep_frame hs hk] at h; cases h
  | dropped hd => rw [fdStep_dropped hd] at h; cases h

theorem fdStep_eq_wait_iff {B : List Byte} : fdStep B = .wait ↔ WaitCondition B := by
  refine ⟨fun h => ?_, fdStep_of_waitCondition⟩
  cases front B with
  | empty => cases h
  | waiting hw => exact hw
  | frame hs hk C => rw [fdStep_frame hs hk] at h; cases h
  | dropped hd => rw [fdStep_dropped hd] at h; cases h

/-- A step that makes progress takes a whole frame, as many bytes as NEED, or drops its leader for one of the causes of rule R191. -/
theorem fdStep_progress_cases {B : List Byte} {e : Event} {k : Nat} (h : fdStep B = .progress e k) :
    (RecordSound e ∧ e.kind ≠ 0 ∧ need B = some k ∧ e.raw = B.take k) ∨
      (∃ b t, B = b :: t ∧ e = .desync b ∧ k = 1 ∧ DropCause B b) := by
  cases front B with
  | empty => cases h
  | waiting hw => rw [fdStep_of_waitCondition hw] at h; cases h
  | frame hs hk C =>
    have hraw := (fdStep_consumes h).raw
    rw [fdStep_frame hs hk] at h
    cases h
    exact .inl ⟨hs, hk, need_frame hs hk C, hraw⟩
  | dropped hd =>
    rw [fdStep_dropped hd] at h
    cases h
    exact .inr ⟨_, _, rfl, rfl, rfl, hd⟩

/-- Every record of a step is true to its own bytes (rules R62 to R66, R68). -/
theorem fdStep_recordSound {B : List Byte} {e : Event} {k : Nat} (h : fdStep B = .progress e k) : RecordSound e := by
  obtain ⟨hs, -⟩ | ⟨b, t, -, rfl, -, hn | ⟨h66, -⟩ | ⟨h77, -⟩⟩ := fdStep_progress_cases h
  · exact hs
  · exact .inl hn
  · exact .inr (.inl h66)
  · exact .inr (.inr h77)

/-- The largest NEED of each class (rule R70). -/
def needBound : WireClass → Nat
  | .t88 => 259
  | .s66 => 6
  | .c77 => 258
  | .uds => 67
  | .noise => 1

theorem need_le_needBound {h : Byte} {t : List Byte} {n : Nat} (hn : need (h :: t) = some n) :
    n ≤ needBound (classify h) := by
  have htwo := byte_lt (byteAt (h :: t) 2)
  have hL := udsLen_eq_mod h
  unfold need at hn
  cases hc : classify h <;> simp only [hc, Option.some.injEq] at hn <;> simp only [needBound] <;> subst hn
  · split <;> omega
  · omega
  · split_ifs <;> omega
  · omega
  · omega

theorem needBound_le (c : WireClass) : needBound c ≤ 259 := by cases c <;> decide

theorem need_le {B : List Byte} {n : Nat} (hn : need B = some n) : n ≤ 259 := by
  cases B with
  | nil => cases hn
  | cons h t => exact (need_le_needBound hn).trans (needBound_le _)

/-- Once NEED bytes are there the step makes progress (rule R70). -/
theorem fdStep_progress_of_need {B : List Byte} {n : Nat} (hn : need B = some n) (hle : n ≤ B.length) :
    ∃ e k, fdStep B = .progress e k := by
  cases hf : fdStep B with
  | idle => rw [fdStep_eq_idle_iff.mp hf] at hn; cases hn
  | wait =>
    obtain ⟨m, hm, hlt⟩ := need_of_waitCondition (fdStep_eq_wait_iff.mp hf)
    rw [hn] at hm
    cases hm
    omega
  | progress e k => exact ⟨e, k, rfl⟩

/-- Progress is decided by the first NEED bytes (42_frame_decoder.md section 5, (a)). -/
theorem fdStep_prefix {B : List Byte} {e : Event} {k : Nat} (h : fdStep B = .progress e k) :
    ∃ n, need B = some n ∧ k ≤ n ∧ n ≤ B.length ∧ ∀ C, fdStep (B.take n ++ C) = .progress e k := by
  obtain ⟨hs, hk, hn, hraw⟩ | ⟨b, t, rfl, rfl, rfl, hd⟩ := fdStep_progress_cases h
  · have hle := (fdStep_consumes h).le
    refine ⟨k, hn, le_rfl, hle, fun C => ?_⟩
    rw [← hraw, fdStep_frame hs hk, hraw, List.length_take_of_le hle]
  · obtain ⟨n, hn, hpos, hle, hcause⟩ := need_dropped hd
    refine ⟨n, hn, hpos, hle, fun C => ?_⟩
    obtain ⟨m, rfl⟩ := Nat.exists_eq_add_of_le' hpos
    exact fdStep_dropped (hcause C)

/-- A decision stands whatever bytes follow. -/
theorem fdStep_append {B : List Byte} {e : Event} {k : Nat} (h : fdStep B = .progress e k) (C : List Byte) :
    fdStep (B ++ C) = .progress e k := by
  obtain ⟨n, -, -, -, hC⟩ := fdStep_prefix h
  rw [← List.take_append_drop n B, List.append_assoc]
  exact hC _

/-- A quiescent buffer is empty or waits (rule R133). -/
theorem quiescent_cases {B : List Byte} (hq : quiescent B = true) : B = [] ∨ fdStep B = .wait := by
  cases hf : fdStep B with
  | idle => exact .inl (fdStep_eq_idle_iff.mp hf)
  | wait => exact .inr rfl
  | progress e k => exact absurd hf ((quiescent_iff B).mp hq e k)

theorem not_quiescent_of_progress {B : List Byte} {e : Event} {k : Nat} (h : fdStep B = .progress e k) :
    quiescent B = false := by
  simp [quiescent, h]

/-- A quiescent buffer holds at most 258 bytes (rule R145). -/
theorem length_le_of_quiescent {B : List Byte} (hq : quiescent B = true) : B.length ≤ 258 := by
  obtain rfl | hw := quiescent_cases hq
  · simp
  · obtain ⟨n, hn, hlt⟩ := need_of_waitCondition (fdStep_eq_wait_iff.mp hw)
    have := need_le hn
    omega

/-! ### The records -/

/-- `checksum_ok` is the checksum test of the record's own bytes (rule R68). -/
theorem checksumOk?_of_sound {e : Event} (hs : RecordSound e) {ok : Bool} (hok : e.checksumOk? = some ok) :
    ok = checksumOk e.raw := by
  cases e with
  | desync b => cases hok
  | telemetry88 screen p ok raw =>
    obtain ⟨-, c, rfl, rfl⟩ := hs
    cases hok
    exact (checksumOk_concat _ _).symm
  | screenRequest66 screen raw => cases hok
  | config77 package p ok raw =>
    obtain ⟨-, c, rfl, rfl⟩ := hs
    cases hok
    exact (checksumOk_concat _ _).symm
  | udsFrame dst src sid data ok raw =>
    obtain ⟨-, header, c, -, -, rfl, rfl⟩ := hs
    cases hok
    exact (checksumOk_concat _ _).symm

/-- The records of kinds 0 and 2 alone have no flag (rule R74). -/
theorem checksumOk?_eq_none_iff {e : Event} : e.checksumOk? = none ↔ e.kind = 0 ∨ e.kind = 2 := by
  cases e <;> simp [Event.checksumOk?, Event.kind]

/-- The checksum test of the first k bytes reads the last of them (rule R68). -/
theorem checksumOk_take_iff {B : List Byte} {k : Nat} (hpos : 1 ≤ k) (hle : k ≤ B.length) :
    checksumOk (B.take k) = true ↔ B[k - 1]? = some (sum8 (B.take (k - 1))) := by
  obtain ⟨j, rfl⟩ := Nat.exists_eq_add_of_le' hpos
  have hj : j < B.length := hle
  rw [Nat.add_sub_cancel, List.take_succ_eq_append_getElem hj, checksumOk_concat, beq_iff_eq,
    List.getElem?_eq_getElem hj, Option.some.injEq]

theorem fault_eq_one_iff {e : Event} : e.fault = 1 ↔ e.kind = 0 := by
  unfold Event.fault
  split_ifs <;> simp_all

theorem fault_eq_two_iff {e : Event} : e.fault = 2 ↔ e.checksumOk? = some false := by
  cases e <;> simp [Event.fault, Event.kind, Event.checksumOk?]

theorem fault_eq_zero_iff {e : Event} : e.fault = 0 ↔ e.validated = true := by
  cases e <;> simp [Event.fault, Event.kind, Event.checksumOk?, Event.validated]

theorem fault_cases (e : Event) : e.fault = 0 ∨ e.fault = 1 ∨ e.fault = 2 := by
  unfold Event.fault
  split_ifs <;> simp

/-- A candidate of a format with a checksum is consumed whole, with the checksum test as its flag (rules R134, R136, R137). -/
theorem fdStep_checked {h : Byte} {t : List Byte} {n : Nat}
    (hc : classify h = .t88 ∨ (classify h = .c77 ∧ (h :: t)[2]? ≠ some 0x00) ∨ classify h = .uds)
    (hn : need (h :: t) = some n) (hle : n ≤ (h :: t).length) :
    ∃ e, fdStep (h :: t) = .progress e n ∧ e.raw = (h :: t).take n ∧
      e.checksumOk? = some (checksumOk ((h :: t).take n)) := by
  obtain ⟨e, k, hp⟩ := fdStep_progress_of_need hn hle
  obtain ⟨hs, hk, hk', hraw⟩ | ⟨b, t', hB, -, -, hd⟩ := fdStep_progress_cases hp
  · obtain rfl : n = k := Option.some.inj (hn.symm.trans hk')
    refine ⟨e, hp, hraw, ?_⟩
    cases hok : e.checksumOk? with
    | some ok => rw [checksumOk?_of_sound hs hok, hraw]
    | none =>
      exfalso
      have hk2 : e.kind = 2 := (checksumOk?_eq_none_iff.mp hok).resolve_left hk
      have hhead : e.raw.head? = some h := by
        rw [hraw, List.head?_take, if_neg]
        · rfl
        · rintro rfl
          exact raw_ne_nil hs hraw
      cases e with
      | screenRequest66 screen raw =>
        cases hs
        cases hhead
        simp [classify] at hc
      | _ => cases hk2
  · cases hB
    exfalso
    obtain hn | ⟨rfl, -⟩ | ⟨rfl, hz⟩ := hd
    · simp [hn] at hc
    · simp [classify] at hc
    · obtain h88 | ⟨-, hne⟩ | hu := hc
      · exact absurd h88 (by decide)
      · exact hne hz
      · exact absurd hu (by decide)

/-! ### The extraction instructions on the state -/

/-- The extraction instruction that the leader selects takes the step on BUF where EV accepts (rules R45, R132). -/
theorem exec_of_progress {s : State} {i : Instr} {e : Event} {k : Nat} (hd : decodeFront s.buf = .ok i)
    (hp : fdStep s.buf = .progress e k) (ha : evAccepts s = true) : exec i s = .next (takeStep e k s) := by
  rw [exec_of_decodeFront hd, hp, applyStep, if_pos ha]

theorem exec_of_wait {s : State} {i : Instr} (hd : decodeFront s.buf = .ok i) (hw : fdStep s.buf = .wait) :
    exec i s = .next s := by
  rw [exec_of_decodeFront hd, hw, applyStep]

/-- A whole frame at the front of BUF is consumed and its record emitted; nothing else changes. -/
theorem exec_frame {s : State} {i : Instr} {e : Event} {C : List Byte} (hs : RecordSound e) (hk : e.kind ≠ 0)
    (hb : s.buf = e.raw ++ C) (ha : evAccepts s = true) (hd : decodeFront s.buf = .ok i) :
    exec i s = .next { s with
      buf := C, pos := s.pos + e.raw.length, out := s.out ++ [e], evAccept := s.evAccept.map (· - 1) } := by
  rw [exec_of_progress hd (by rw [hb]; exact fdStep_frame hs hk C) ha]
  simp [takeStep, bufConsume, emit, hb]

/-- A byte to drop is consumed alone and reported as Desync; nothing else changes. -/
theorem exec_dropped {s : State} {i : Instr} {h : Byte} {t : List Byte} (hc : DropCause (h :: t) h)
    (hb : s.buf = h :: t) (ha : evAccepts s = true) (hd : decodeFront s.buf = .ok i) :
    exec i s = .next { s with
      buf := t, pos := s.pos + 1, out := s.out ++ [.desync h], evAccept := s.evAccept.map (· - 1) } := by
  rw [exec_of_progress hd (by rw [hb]; exact fdStep_dropped hc) ha]
  simp [takeStep, bufConsume, emit, hb]

/-- Settles O12: the candidate is the bytes of a sound record. -/
theorem telemetryStepConsumesTheCandidate : Obligations.TelemetryStepConsumesTheCandidate := by
  intro s screen c payload tail hp hb ha
  have hs : RecordSound (.telemetry88 screen payload (c == sum8 (t88Body screen payload)) (t88Body screen payload ++ [c])) :=
    ⟨hp, c, rfl, rfl⟩
  rw [exec_frame hs (by simp [Event.kind]) hb ha (by rw [hb]; rfl)]
  simp [Event.raw, t88Body]

/-- Settles O13: six bytes are a sound record, or a byte to drop. -/
theorem screenRequestStepMatchesTheLiteral : Obligations.ScreenRequestStepMatchesTheLiteral := by
  refine ⟨fun s screen tail hb ha => ?_, fun s a b c d e tail hb hlit ha => ?_⟩
  · have hs : RecordSound (.screenRequest66 screen (encS66 screen)) := rfl
    exact exec_frame hs (by simp [Event.kind]) hb ha (by rw [hb]; rfl)
  · exact exec_dropped (.inr (.inl ⟨rfl, by simp, hlit⟩)) hb ha (by rw [hb]; rfl)

/-- Settles O14: a sound record where the length field is not zero, a byte to drop where it is. -/
theorem configStepConsumesTheCandidate : Obligations.ConfigStepConsumesTheCandidate := by
  refine ⟨fun s package c payload tail hp hb ha => ?_, fun s package tail hb ha => ?_⟩
  · have hs : RecordSound (.config77 package payload (c == sum8 (c77Body package payload)) (c77Body package payload ++ [c])) :=
      ⟨hp, c, rfl, rfl⟩
    rw [exec_frame hs (by simp [Event.kind]) hb ha (by rw [hb]; rfl)]
    simp [Event.raw, c77Body]
  · exact exec_dropped (.inr (.inr ⟨rfl, rfl⟩)) hb ha (by rw [hb]; rfl)

/-- Settles O15: the candidate is the bytes of a sound record, whose header selects XUDS. -/
theorem udsStepConsumesTheCandidate : Obligations.UdsStepConsumesTheCandidate := by
  intro s header dst src c sid data tail hge hne hsid hL hb ha
  have hu : classify header = .uds := classify_eq_uds_iff.mpr ⟨hge, hne⟩
  have hs : RecordSound (.udsFrame dst src sid data (c == sum8 ([header, dst, src] ++ sid.toList ++ data))
      ([header, dst, src] ++ sid.toList ++ data ++ [c])) := ⟨hsid, header, c, udsHeader_iff.mpr hu, hL, rfl, rfl⟩
  have hd : decodeFront s.buf = .ok (.xuds header) := by
    rw [hb]
    exact congrArg Except.ok (decodeLeader_of_uds hu)
  rw [exec_frame hs (by simp [Event.kind]) hb ha hd, hL]
  simp [Event.raw, Nat.add_assoc]

/-- Settles O17: each wait condition waits, and no other front does. -/
theorem decoderWaitsExactlyUnderTheListedConditions : Obligations.DecoderWaitsExactlyUnderTheListedConditions :=
  ⟨fun _ => fdStep_eq_wait_iff, fun _ _ hd hw => exec_of_wait hd (fdStep_of_waitCondition hw)⟩

/-- Settles O18: progress is not taken where EV does not accept, and nothing else writes. -/
theorem heldExtractionStepChangesNothing : Obligations.HeldExtractionStepChangesNothing := by
  intro s i hd ha
  rw [exec_of_decodeFront hd]
  obtain h | ⟨e, k, -, ha', -⟩ := applyStep_cases (fdStep s.buf) s
  · rw [h]
  · rw [ha] at ha'
    cases ha'

/-- Settles O19: the flag is the test of the record's bytes, which are the bytes consumed. -/
theorem checksumFlagIsTheSumTestOfTheCandidate : Obligations.ChecksumFlagIsTheSumTestOfTheCandidate := by
  intro B e k hp
  have hc := fdStep_consumes hp
  refine ⟨fun ok hok => ⟨hc.raw, ?_⟩, checksumOk?_eq_none_iff⟩
  rw [checksumOk?_of_sound (fdStep_recordSound hp) hok, hc.raw]
  exact checksumOk_take_iff hc.pos hc.le

/-- Settles O20: a step takes a whole candidate or drops a byte, and the fault code tells which, and what the checksum test gave. -/
theorem faultsHaveTheirCausesAndTheirCost : Obligations.FaultsHaveTheirCausesAndTheirCost := by
  intro B e k hp
  obtain ⟨hs, hk, hn, hraw⟩ | ⟨b, t, rfl, rfl, rfl, hd⟩ := fdStep_progress_cases hp
  · refine ⟨fun h => absurd (fault_eq_one_iff.mp h) hk, fun h => ?_, fun h => ⟨hn, hraw, fault_eq_zero_iff.mp h⟩,
      fault_cases e⟩
    have hflag := fault_eq_two_iff.mp h
    have hc := fdStep_consumes hp
    have hbad : ¬ checksumOk (B.take k) = true := by
      rw [← hraw, ← checksumOk?_of_sound hs hflag]
      exact Bool.false_ne_true
    refine ⟨hn, hraw, hk, fun hk2 => ?_, fun h => hbad ((checksumOk_take_iff hc.pos hc.le).mpr h)⟩
    rw [checksumOk?_eq_none_iff.mpr (.inr hk2)] at hflag
    cases hflag
  · refine ⟨fun _ => ⟨rfl, b, rfl, rfl, ?_⟩, nofun, nofun, fault_cases _⟩
    exact hd

/-- Settles O21: (a) is the lemma on the first NEED bytes, (b) follows from it, and (c) from the bound on NEED. -/
theorem decisionsDoNotDependOnLaterBytes : Obligations.DecisionsDoNotDependOnLaterBytes := by
  refine ⟨fun B e k hp => fdStep_prefix hp, fun B C hw => ?_, fun B hw => ?_⟩
  · cases hf : fdStep B with
    | idle => exact .inr (fdStep_eq_idle_iff.mp hf)
    | wait => exact .inl rfl
    | progress e k => rw [fdStep_append hf C] at hw; cases hw
  · obtain ⟨n, hn, hlt⟩ := need_of_waitCondition (fdStep_eq_wait_iff.mp hw)
    refine ⟨n, hn, hlt, fun C hC => ?_⟩
    have hlong : 259 ≤ (B ++ C).length := by
      rw [List.length_append]
      exact hC.trans (Nat.le_add_left _ _)
    cases hf : fdStep (B ++ C) with
    | progress e k => exact ⟨e, k, rfl⟩
    | idle => simp [fdStep_eq_idle_iff.mp hf] at hlong
    | wait =>
      have := length_le_of_quiescent (quiescent_of_waitCondition (fdStep_eq_wait_iff.mp hf))
      omega

/-- Settles O22: a quiescent buffer that is not empty waits, so it is shorter than its NEED, which its class bounds. -/
theorem quiescentBufferIsBounded : Obligations.QuiescentBufferIsBounded := by
  intro h t hq
  have hw := (quiescent_cases hq).resolve_left (List.cons_ne_nil h t)
  obtain ⟨n, hn, hlt⟩ := need_of_waitCondition (fdStep_eq_wait_iff.mp hw)
  have hbound := need_le_needBound hn
  have hclass : ∀ c, classify h = c → (h :: t).length < needBound c := by
    rintro c rfl
    omega
  refine ⟨⟨n, hn, hlt, need_le hn⟩, fun hc => Nat.le_of_lt_succ (hclass _ hc),
    fun hc => Nat.le_of_lt_succ (hclass _ hc), fun hc => Nat.le_of_lt_succ (hclass _ hc),
    fun hc => Nat.le_of_lt_succ (hclass _ hc), fun hc => ?_⟩
  rw [fdStep_dropped (.inl hc)] at hw
  cases hw

end Sys2Proof.Machine
end

/-! ## The loop and PUSH (42_frame_decoder.md sections 1 and 5) -/
section
namespace Sys2Proof.Machine

/-! ### Chains of extraction steps -/

theorem fdReady_eq_false_iff {s : State} : fdReady s = false ↔ quiescent s.buf = true ∨ evAccepts s = false := by
  simp only [fdReady, Bool.and_eq_false_iff, Bool.not_eq_false']

theorem fdReady_of_progress {s : State} {e : Event} {k : Nat} (hp : fdStep s.buf = .progress e k)
    (ha : evAccepts s = true) : fdReady s = true := by
  simp [fdReady, not_quiescent_of_progress hp, ha]

theorem progress_of_fdReady {s : State} (h : fdReady s = true) :
    ∃ e k, fdStep s.buf = .progress e k ∧ evAccepts s = true := by
  simp only [fdReady, Bool.and_eq_true_iff, Bool.not_eq_true'] at h
  obtain ⟨hq, ha⟩ := h
  cases hf : fdStep s.buf with
  | progress e k => exact ⟨e, k, rfl, ha⟩
  | idle => simp [quiescent, hf] at hq
  | wait => simp [quiescent, hf] at hq

/-- Where EV always accepts, only a quiescent BUF stops the Frame Decoder. -/
theorem quiescent_of_not_ready {s : State} (hev : EvAlways s) (h : fdReady s = false) : quiescent s.buf = true := by
  obtain hq | ha := fdReady_eq_false_iff.mp h
  · exact hq
  · rw [evAccepts_of_none hev] at ha
    cases ha

theorem fdReady_of_empty {s : State} (h : s.buf = []) : fdReady s = false :=
  fdReady_eq_false_iff.mpr (.inl (by rw [h]; rfl))

theorem Extraction.trans {s t u : State} {es fs : List Event} (h : Extraction s es t) (h' : Extraction t fs u) :
    Extraction s (es ++ fs) u := by
  induction h with
  | done s => exact h'
  | step hp ha _ ih => exact .step hp ha (ih h')

/-- Chains to a state where no step can be taken are one and the same: a step is a function of the state (rule R132). -/
theorem Extraction.unique {s t t' : State} {es es' : List Event} (h : Extraction s es t) (ht : fdReady t = false)
    (h' : Extraction s es' t') (ht' : fdReady t' = false) : t = t' := by
  induction h generalizing es' with
  | done s =>
    cases h' with
    | done => rfl
    | step hp ha _ => rw [fdReady_of_progress hp ha] at ht; cases ht
  | @step s t e k es hp ha rest ih =>
    cases h' with
    | done => rw [fdReady_of_progress hp ha] at ht'; cases ht'
    | step hp' ha' rest' =>
      rw [hp] at hp'
      cases hp'
      exact ih ht rest'

theorem map_sub_map_sub (o : Option Nat) (a b : Nat) : (o.map (· - a)).map (· - b) = o.map (· - (a + b)) := by
  cases o <;> simp [Nat.sub_sub]

/-- What a chain writes (rule R149). -/
theorem Extraction.frame {s t : State} {es : List Event} (h : Extraction s es t) :
    s.buf = rawBytes es ++ t.buf ∧ t = { s with
      buf := t.buf, pos := s.pos + (rawBytes es).length, out := s.out ++ es,
      evAccept := s.evAccept.map (· - es.length) } := by
  induction h with
  | done s => simp
  | @step s t e k es hp ha rest ih =>
    obtain ⟨hbuf, ht⟩ := ih
    have hc := fdStep_consumes hp
    have hk : e.raw.length = k := by rw [hc.raw, List.length_take_of_le hc.le]
    refine ⟨?_, ht.trans ?_⟩
    · rw [rawBytes_cons, List.append_assoc, ← hbuf, hc.raw]
      exact (List.take_append_drop k s.buf).symm
    · simp only [takeStep_pos, takeStep_out, takeStep_evAccept, map_sub_map_sub, rawBytes_cons, List.length_append,
        List.length_cons, List.append_assoc, List.singleton_append, hk, Nat.add_assoc, Nat.add_comm 1]
      rfl

/-- Every event of a chain has cost at least one byte (rule R142). -/
theorem Extraction.length_le {s t : State} {es : List Event} (h : Extraction s es t) : es.length ≤ s.buf.length := by
  induction h with
  | done s => exact Nat.zero_le _
  | step hp ha rest ih =>
    have hc := fdStep_consumes hp
    have hpos := hc.pos
    have hle := hc.le
    rw [takeStep_buf, List.length_drop] at ih
    rw [List.length_cons]
    omega

/-- With a round for each byte of BUF the loop ends where no step can be taken (rule R133). -/
theorem drainFor_extraction : ∀ (n : Nat) (s : State), s.buf.length ≤ n →
    ∃ es, Extraction s es (drainFor n s) ∧ fdReady (drainFor n s) = false := by
  intro n
  induction n with
  | zero => exact fun s h => ⟨[], .done s, fdReady_of_empty (List.eq_nil_of_length_eq_zero (Nat.le_zero.mp h))⟩
  | succ n ih =>
    intro s hlen
    cases hr : fdReady s with
    | true =>
      obtain ⟨e, k, hp, ha⟩ := progress_of_fdReady hr
      have hc := fdStep_consumes hp
      have hpos := hc.pos
      obtain ⟨es, hx, hstop⟩ := ih (takeStep e k s) (by rw [takeStep_buf, List.length_drop]; omega)
      have heq : drainFor (n + 1) s = drainFor n (takeStep e k s) := by simp [drainFor, hp, ha]
      rw [heq]
      exact ⟨e :: es, .step hp ha hx, hstop⟩
    | false =>
      have heq : drainFor (n + 1) s = s := by
        obtain hq | ha := fdReady_eq_false_iff.mp hr
        · obtain hnil | hw := quiescent_cases hq
          · simp [drainFor, fdStep_eq_idle_iff.mpr hnil]
          · simp [drainFor, hw]
        · unfold drainFor
          split <;> simp [ha]
      rw [heq]
      exact ⟨[], .done s, hr⟩

theorem drain_extraction (s : State) : ∃ es, Extraction s es (drain s) ∧ fdReady (drain s) = false :=
  drainFor_extraction _ s le_rfl

theorem fdReady_drain (s : State) : fdReady (drain s) = false :=
  let ⟨_, _, h⟩ := drain_extraction s
  h

/-- Draining goes on from wherever a chain of steps has come to. -/
theorem Extraction.drain_eq {s t : State} {es : List Event} (h : Extraction s es t) : drain s = drain t := by
  obtain ⟨es', hx, hs⟩ := drain_extraction s
  obtain ⟨fs, hy, ht⟩ := drain_extraction t
  exact hx.unique hs (h.trans hy) ht

theorem drain_of_not_ready {s : State} (h : fdReady s = false) : drain s = s := by
  obtain ⟨es, hx, hs⟩ := drain_extraction s
  exact hx.unique hs (.done s) h

theorem evAlways_drain {s : State} (h : EvAlways s) : EvAlways (drain s) := by
  obtain ⟨es, hx, -⟩ := drain_extraction s
  have hev := congrArg State.evAccept hx.frame.2
  rw [EvAlways, hev, h]
  rfl

theorem quiescent_drain {s : State} (h : EvAlways s) : quiescent (drain s).buf = true :=
  quiescent_of_not_ready (evAlways_drain h) (fdReady_drain s)

/-- Settles O23: the loop is a chain of extraction steps to where none can be taken. -/
theorem drainTakesStepsUntilQuiescent : Obligations.DrainTakesStepsUntilQuiescent := by
  intro s
  obtain ⟨es, hx, hstop⟩ := drain_extraction s
  exact ⟨es, hx, hx.length_le, congrArg State.out hx.frame.2, fdReady_eq_false_iff.mp hstop,
    fun hev => quiescent_cases (quiescent_drain hev)⟩

/-! ### Bytes behind those of BUF -/

/-- A chunk appended whole: `BufAppend` of each of its bytes (rule R130). -/
def receive (C : List Byte) (s : State) : State := { s with buf := s.buf ++ C, rxcnt := s.rxcnt + C.length }

theorem receive_nil (s : State) : receive [] s = s := by simp [receive]

theorem receive_cons (b : Byte) (C : List Byte) (s : State) : receive (b :: C) s = receive C (bufAppend b s) := by
  simp [receive, bufAppend, Nat.add_assoc, Nat.add_comm 1]

theorem receive_append (C D : List Byte) (s : State) : receive (C ++ D) s = receive D (receive C s) := by
  simp [receive, Nat.add_assoc]

theorem foldl_bufAppend (C : List Byte) (s : State) : C.foldl (fun s b => bufAppend b s) s = receive C s := by
  induction C generalizing s with
  | nil => exact (receive_nil s).symm
  | cons b C ih => rw [List.foldl_cons, ih, receive_cons]

/-- The steps of a chain are taken whatever bytes are behind those of BUF (42_frame_decoder.md section 5). -/
theorem Extraction.receive {s t : State} {es : List Event} (h : Extraction s es t) (C : List Byte) :
    Extraction (receive C s) es (receive C t) := by
  induction h with
  | done s => exact .done _
  | @step s t e k es hp ha rest ih =>
    have htake : takeStep e k (Machine.receive C s) = Machine.receive C (takeStep e k s) := by
      simp [Machine.receive, takeStep, bufConsume, emit, List.drop_append_of_le_length (fdStep_consumes hp).le]
    exact .step (fdStep_append hp C) ha (by rw [htake]; exact ih)

/-- Draining before a chunk is appended and after it is draining after it. -/
theorem drain_receive_drain (C : List Byte) (s : State) : drain (receive C (drain s)) = drain (receive C s) := by
  obtain ⟨es, hx, -⟩ := drain_extraction s
  exact (hx.receive C).drain_eq.symm

/-! ### PUSH where EV always accepts -/

theorem rxOpen_of_length {s : State} (hcap : CapacityOk s) (h : s.buf.length ≤ 258) : rxOpen s = true :=
  (rxOpen_iff s).mpr fun c hc => by
    have hcap' : 259 ≤ c := (capOk_iff s.cfg).mp hcap c hc
    omega

/-- A quiescent BUF leaves room for a byte (rule R54, decision D3). -/
theorem rxOpen_of_quiescent {s : State} (hcap : CapacityOk s) (hq : quiescent s.buf = true) : rxOpen s = true :=
  rxOpen_of_length hcap (length_le_of_quiescent hq)

/-- The byte-serial form of PUSH gives what the chunk form gives (rules R130, R131). -/
theorem pushBytes_drain (chunk : List Byte) : ∀ s : State, EvAlways s → CapacityOk s →
    pushBytes chunk (drain s) = drain (receive chunk s) := by
  induction chunk with
  | nil => intro s _ _; rw [receive_nil]; rfl
  | cons b C ih =>
    intro s hev hcap
    have hcap' : CapacityOk (drain s) := by rw [CapacityOk, drain_cfg]; exact hcap
    have hopen : rxOpen (drain s) = true := rxOpen_of_quiescent hcap' (quiescent_drain hev)
    calc pushBytes (b :: C) (drain s) = pushBytes C (drain (bufAppend b (drain s))) := by
          rw [pushBytes, if_pos hopen]
      _ = drain (receive C (bufAppend b (drain s))) := ih _ (evAlways_drain hev) hcap'
      _ = drain (receive (b :: C) s) := by rw [← receive_cons, drain_receive_drain]

theorem exec_push {s : State} (chunk : List Byte) (hev : EvAlways s) (hcap : CapacityOk s) :
    exec (.push chunk) s = .next (drain (receive chunk s)) :=
  execPush_next.mpr ⟨hcap, (pushBytes_drain chunk s hev hcap).symm⟩

/-- Settles O25: both forms drain the state with the whole chunk appended. -/
theorem byteSerialPushEqualsChunkPush : Obligations.ByteSerialPushEqualsChunkPush := by
  intro s chunk hev hcap
  rw [exec_push chunk hev hcap, pushChunk, foldl_bufAppend]

/-- Pushing chunks one after the other drains what all of them together append. -/
theorem runOps_push (cs : List (List Byte)) : ∀ (c : List Byte) (s : State), EvAlways s → CapacityOk s →
    runOps ((c :: cs).map .push) s = .next (drain (receive (c :: cs).flatten s)) := by
  induction cs with
  | nil => intro c s hev hcap; simp [runOps, exec_push c hev hcap]
  | cons d cs ih =>
    intro c s hev hcap
    have hev' : EvAlways (drain (receive c s)) := evAlways_drain hev
    have hcap' : CapacityOk (drain (receive c s)) := by rw [CapacityOk, drain_cfg]; exact hcap
    rw [List.map_cons, runOps, exec_push c hev hcap]
    simp only
    rw [ih d _ hev' hcap', drain_receive_drain, ← receive_append, ← List.flatten_cons]

/-- Settles O26: however the chunks are cut, the same bytes are appended and drained. -/
theorem chunkBoundariesAreInvisible : Obligations.ChunkBoundariesAreInvisible := by
  intro s c cs hev hcap
  rw [exec_push _ hev hcap]
  exact ⟨runOps_push cs c s hev hcap, _, rfl⟩

/-! ### Streams of records -/

/-- The bytes of the record, whatever follows them, are decoded into that record. -/
def SelfDelimiting (e : Event) : Prop := ∀ C, fdStep (e.raw ++ C) = .progress e e.raw.length

/-- Read from its beginning, the sequence made of the records' bytes and C behind them gives these records. -/
def DecodesTo (C : List Byte) : List Event → Prop
  | [] => True
  | e :: es => fdStep (e.raw ++ (rawBytes es ++ C)) = .progress e e.raw.length ∧ DecodesTo C es

theorem selfDelimiting_frame {e : Event} (hs : RecordSound e) (hk : e.kind ≠ 0) : SelfDelimiting e := fdStep_frame hs hk

theorem selfDelimiting_noise {g : Byte} (hg : classify g = .noise) : SelfDelimiting (.desync g) :=
  fun _ => fdStep_dropped (.inl hg)

theorem decodesTo_of_selfDelimiting {es : List Event} (hes : ∀ e ∈ es, SelfDelimiting e) (C : List Byte) :
    DecodesTo C es := by
  induction es with
  | nil => trivial
  | cons e es ih =>
    obtain ⟨he, hes⟩ := List.forall_mem_cons.mp hes
    exact ⟨he _, ih hes⟩

/-- From a BUF that begins with the bytes of such records, the steps emit exactly these records. -/
theorem extraction_records (C : List Byte) : ∀ (es : List Event) (s : State), DecodesTo C es →
    s.buf = rawBytes es ++ C → EvAlways s →
    Extraction s es { s with buf := C, pos := s.pos + (rawBytes es).length, out := s.out ++ es } := by
  intro es
  induction es with
  | nil =>
    rintro s - rfl -
    simpa using Extraction.done s
  | cons e es ih =>
    rintro s ⟨he, hes⟩ hb hev
    rw [rawBytes_cons, List.append_assoc] at hb
    refine .step (k := e.raw.length) (by rw [hb]; exact he) (evAccepts_of_none hev) ?_
    have hnone : s.evAccept.map (· - 1) = s.evAccept := by rw [hev]; rfl
    have h := ih (takeStep e e.raw.length s) hes (by rw [takeStep_buf, hb, List.drop_left]) (by
      rw [EvAlways, takeStep_evAccept, hnone, hev])
    simpa [takeStep, bufConsume, emit, hnone, Nat.add_assoc] using h

/-- Pushing the bytes of such records and then C on an empty BUF is pushing C where the records have been emitted. -/
theorem exec_push_records {s : State} {es : List Event} {C : List Byte} (hes : DecodesTo C es) (hb : s.buf = [])
    (hev : EvAlways s) (hcap : CapacityOk s) :
    exec (.push (rawBytes es ++ C)) s = exec (.push C) { s with
      rxcnt := s.rxcnt + (rawBytes es).length, pos := s.pos + (rawBytes es).length, out := s.out ++ es } := by
  have hx := extraction_records C es (receive (rawBytes es ++ C) s) hes (by simp [receive, hb]) hev
  rw [exec_push _ hev hcap, hx.drain_eq]
  symm
  refine (exec_push C ?_ ?_).trans ?_
  · exact hev
  · exact hcap
  · simp [receive, hb, Nat.add_assoc]

@[simp] theorem desync_raw (b : Byte) : (Event.desync b).raw = [b] := rfl

/-- Pushing nothing on an empty BUF changes nothing. -/
theorem exec_push_nil {s : State} (hb : s.buf = []) (hev : EvAlways s) (hcap : CapacityOk s) :
    exec (.push []) s = .next s := by
  rw [exec_push [] hev hcap, receive_nil, drain_of_not_ready (fdReady_of_empty hb)]

theorem rawBytes_map_desync (gs : List Byte) : rawBytes (gs.map .desync) = gs := by
  induction gs with
  | nil => rfl
  | cons g gs ih => rw [List.map_cons, rawBytes_cons, ih]; rfl

theorem selfDelimiting_map_desync {gs : List Byte} (hgs : ∀ g ∈ gs, classify g = .noise) :
    ∀ e ∈ gs.map Event.desync, SelfDelimiting e := by
  intro e he
  obtain ⟨g, hg, rfl⟩ := List.mem_map.mp he
  exact selfDelimiting_noise (hgs g hg)

/-- Settles O16: a NOISE leader is a byte to drop, and a run of them is a stream of Desync records. -/
theorem noiseStepDropsExactlyOneByte : Obligations.NoiseStepDropsExactlyOneByte := by
  refine ⟨fun s g tail hlt h66 h77 hb ha => ⟨?_, rfl, rfl⟩, fun s gs hgs hb hev hcap => ?_⟩
  · have hg : classify g = .noise := classify_eq_noise_iff.mpr ⟨hlt, h66, h77⟩
    have hd : decodeFront s.buf = .ok (.xnoise g) := by
      rw [hb]
      exact congrArg Except.ok (decodeLeader_of_noise hg)
    exact exec_dropped (.inl hg) hb ha hd
  · have hes := selfDelimiting_map_desync fun g hg => classify_eq_noise_iff.mpr (hgs g hg)
    have h := exec_push_records (decodesTo_of_selfDelimiting hes []) hb hev hcap
    rw [rawBytes_map_desync, List.append_nil] at h
    exact h.trans (exec_push_nil hb hev hcap)

/-! ### Well-formed frames -/

theorem WireFrame.event_raw (f : WireFrame) : f.event.raw = f.bytes := by cases f <;> rfl

theorem WireFrame.event_kind (f : WireFrame) : f.event.kind ≠ 0 := by cases f <;> simp [WireFrame.event, Event.kind]

/-- The event of a well-formed frame is a sound record (rules R62 to R66, R77). -/
theorem WireFrame.event_sound {f : WireFrame} (hf : f.wf = true) : RecordSound f.event := by
  cases f with
  | t88 screen p => exact ⟨of_decide_eq_true hf, _, rfl, (beq_self_eq_true _).symm⟩
  | s66 screen => rfl
  | c77 package p => exact ⟨of_decide_eq_true hf, _, rfl, (beq_self_eq_true _).symm⟩
  | uds header dst src sid data =>
    obtain ⟨hu, hL⟩ := Bool.and_eq_true_iff.mp hf
    refine ⟨nofun, header, sum8 ([header] ++ ([dst, src, sid] ++ data)), hu, ?_, by simp [WireFrame.bytes, encUDS, close],
      by simp⟩
    rw [← udsLen_eq_mod, of_decide_eq_true hL]
    rfl
  | udsShort header dst src =>
    obtain ⟨hu, hL⟩ := Bool.and_eq_true_iff.mp hf
    refine ⟨fun _ => rfl, header, sum8 [header, dst, src], hu, ?_, rfl, by simp⟩
    rw [← udsLen_eq_mod, of_decide_eq_true hL]
    rfl

theorem WireFrame.event_selfDelimiting {f : WireFrame} (hf : f.wf = true) : SelfDelimiting f.event :=
  selfDelimiting_frame (WireFrame.event_sound hf) f.event_kind

theorem rawBytes_map_event (fs : List WireFrame) : rawBytes (fs.map WireFrame.event) = fs.flatMap WireFrame.bytes := by
  rw [rawBytes, List.flatMap_map]
  exact List.flatMap_congr fun f _ => f.event_raw

/-- Settles O27: the stream is the bytes of the frames' records. -/
theorem wellFormedStreamIsDecodedExactly : Obligations.WellFormedStreamIsDecodedExactly := by
  intro s fs hfs hb hev hcap
  have hes : ∀ e ∈ fs.map WireFrame.event, SelfDelimiting e := by
    intro e he
    obtain ⟨f, hf, rfl⟩ := List.mem_map.mp he
    exact WireFrame.event_selfDelimiting (hfs f hf)
  have h := exec_push_records (decodesTo_of_selfDelimiting hes []) hb hev hcap
  rw [rawBytes_map_event, List.append_nil] at h
  exact h.trans (exec_push_nil hb hev hcap)

/-- No frame begins with the first letter of the literal, so a 0x66 before a frame is dropped (rule R135). -/
theorem dropCause_before_frame {f : WireFrame} {C : List Byte} (hf : f.wf = true) (hlen : 5 ≤ (f.bytes ++ C).length) :
    DropCause (0x66 :: (f.bytes ++ C)) 0x66 := by
  refine .inr (.inl ⟨rfl, by rw [List.length_cons]; omega, fun hlit => ?_⟩)
  have hS : (f.bytes ++ C).head? = some 0x53 := by
    have := congrArg List.head? hlit
    rwa [List.drop_one, List.tail_cons, List.head?_take, if_neg (by decide)] at this
  cases f with
  | t88 screen p => cases hS
  | s66 screen => cases hS
  | c77 package p => cases hS
  | uds header dst src sid data =>
    cases hS
    simp [WireFrame.wf, udsHeader] at hf
  | udsShort header dst src =>
    cases hS
    simp [WireFrame.wf, udsHeader] at hf

/-- Settles O28: noise and the frame are a stream of records; the 0x66 is decoded so by what is behind it. -/
theorem noiseBeforeAFrameIsDropped : Obligations.NoiseBeforeAFrameIsDropped := by
  refine ⟨fun s gs f C hgs hf hb hev hcap => ⟨?_, _, exec_push _ hev hcap⟩,
    fun s f C hf hlen hb hev hcap => ⟨?_, _, exec_push _ hev hcap⟩⟩
  · have hes : ∀ e ∈ gs.map Event.desync ++ [f.event], SelfDelimiting e := by
      intro e he
      obtain hg | hfe := List.mem_append.mp he
      · exact selfDelimiting_map_desync (fun g hg => noiseByte_iff.mp (hgs g hg)) e hg
      · rw [List.mem_singleton.mp hfe]
        exact WireFrame.event_selfDelimiting hf
    have h := exec_push_records (decodesTo_of_selfDelimiting hes C) hb hev hcap
    simpa [rawBytes_map_desync, WireFrame.event_raw, List.append_assoc] using h
  · have hes : DecodesTo C [.desync 0x66, f.event] := by
      refine ⟨?_, WireFrame.event_selfDelimiting hf _, trivial⟩
      simpa [WireFrame.event_raw] using fdStep_dropped (dropCause_before_frame hf hlen)
    have h := exec_push_records hes hb hev hcap
    simpa [WireFrame.event_raw, Nat.add_comm 1] using h

end Sys2Proof.Machine
end

/-! ## What every step keeps (10_state.md section 6, 20_memory.md sections 5 and 6, 42_frame_decoder.md section 5) -/
section
namespace Sys2Proof.Machine

/-! ### Every byte of a PUSH is accounted for -/

/-- What PUSH did: it emitted es, took `app` from the chunk and left `left` on the port, and stopped where no step can be taken; bytes
are left only where BUF is full (rules R53, R54, R144). -/
structure Pushed (s : State) (es : List Event) (app left : List Byte) (t : State) : Prop where
  bytes : rawBytes es ++ t.buf = s.buf ++ app
  writes : t = { s with
    buf := t.buf, rxcnt := s.rxcnt + app.length, pos := s.pos + (rawBytes es).length, out := s.out ++ es,
    input := if left = [] then s.input else .push left :: s.input, evAccept := s.evAccept.map (· - es.length) }
  stop : fdReady t = false
  full : left ≠ [] → rxOpen t = false

theorem Pushed.of_extraction {s u t : State} {es fs : List Event} {app left : List Byte} (h : Extraction s es u)
    (h' : Pushed u fs app left t) : Pushed s (es ++ fs) app left t := by
  obtain ⟨hbuf, hu⟩ := h.frame
  refine ⟨by rw [rawBytes_append, List.append_assoc, h'.bytes, hbuf, List.append_assoc], ?_, h'.stop, h'.full⟩
  refine h'.writes.trans ?_
  rw [hu]
  simp only [map_sub_map_sub, rawBytes_append, List.length_append, Nat.add_assoc, List.append_assoc]

theorem Pushed.of_bufAppend {s t : State} {b : Byte} {es : List Event} {app left : List Byte}
    (h : Pushed (bufAppend b s) es app left t) : Pushed s es (b :: app) left t := by
  refine ⟨by simpa using h.bytes, h.writes.trans ?_, h.stop, h.full⟩
  simp [bufAppend, Nat.add_assoc, Nat.add_comm 1]

theorem pushBytes_pushed (chunk : List Byte) : ∀ s : State, fdReady s = false →
    ∃ es app left, chunk = app ++ left ∧ Pushed s es app left (pushBytes chunk s) := by
  induction chunk with
  | nil =>
    intro s hr
    exact ⟨[], [], [], rfl, by simp [pushBytes], by simp [pushBytes], hr, absurd rfl⟩
  | cons b bs ih =>
    intro s hr
    cases hopen : rxOpen s with
    | true =>
      obtain ⟨es, hx, hstop⟩ := drain_extraction (bufAppend b s)
      obtain ⟨fs, app, left, rfl, hp⟩ := ih _ hstop
      rw [pushBytes, if_pos hopen]
      exact ⟨es ++ fs, b :: app, left, rfl, (hp.of_extraction hx).of_bufAppend⟩
    | false =>
      rw [pushBytes, if_neg (by simp [hopen])]
      exact ⟨[], [], b :: bs, rfl, by simp, by simp [setInput], hr, fun _ => hopen⟩

/-- PUSH takes a beginning of its chunk and accounts for every byte (rule R144). -/
theorem execPush_pushed (chunk : List Byte) (s : State) :
    ∃ es app left, chunk = app ++ left ∧ Pushed s es app left (pushBytes chunk (drain s)) := by
  obtain ⟨es, hx, hstop⟩ := drain_extraction s
  obtain ⟨fs, app, left, hchunk, hp⟩ := pushBytes_pushed chunk _ hstop
  exact ⟨es ++ fs, app, left, hchunk, hp.of_extraction hx⟩

/-- Settles O24: the account of PUSH, with nothing left where EV always accepts, since a quiescent BUF is not full. -/
theorem pushCompletesAndConservesEveryByte : Obligations.PushCompletesAndConservesEveryByte := by
  intro s chunk hcap
  obtain ⟨es, app, left, rfl, hp⟩ := execPush_pushed chunk s
  have hw := hp.writes
  generalize ht : pushBytes (app ++ left) (drain s) = t at hp hw
  have hexec : exec (.push (app ++ left)) s = .next t := execPush_next.mpr ⟨hcap, ht.symm⟩
  have hcfg : t.cfg = s.cfg := (congrArg State.cfg hw :)
  refine ⟨t, es, left, hexec, congrArg State.out hw, ?_, by simp, ?_, congrArg State.pos hw, congrArg State.input hw,
    hcfg, (congrArg State.res hw :), congrArg State.evAccept hw, hp.full, fdReady_eq_false_iff.mp hp.stop, fun hev => ?_⟩
  · rw [hp.bytes, List.append_assoc]
  · rw [(congrArg State.rxcnt hw :), List.length_append, Nat.add_sub_cancel]
  · have hevt : EvAlways t := by
      rw [EvAlways, congrArg State.evAccept hw, hev]
      rfl
    have hq := quiescent_of_not_ready hevt hp.stop
    have hcapt : CapacityOk t := by rwa [CapacityOk, hcfg]
    refine ⟨?_, hq, length_le_of_quiescent hq⟩
    by_contra hne
    have hfull := hp.full hne
    rw [rxOpen_of_quiescent hcapt hq] at hfull
    cases hfull

/-- An extraction instruction takes no step or one. -/
theorem applyStep_extraction (s : State) : ∃ es, Extraction s es (applyStep (fdStep s.buf) s) := by
  obtain h | ⟨e, k, hp, ha, h⟩ := applyStep_cases (fdStep s.buf) s
  · rw [h]
    exact ⟨[], .done s⟩
  · rw [h]
    exact ⟨[e], .step hp ha (.done _)⟩

/-- Settles O34: an extraction instruction is a chain of steps, PUSH has its account, and the other units leave BUF and OUT alone. -/
theorem noInstructionButClrAndRstLosesAByte : Obligations.NoInstructionButClrAndRstLosesAByte := by
  intro i s t h hclr hrst
  cases exec_effect h with
  | extract hd =>
    obtain ⟨es, hx⟩ := applyStep_extraction s
    obtain ⟨hbuf, hw⟩ := hx.frame
    exact ⟨es, [], congrArg State.out hw, by rw [← hbuf, List.append_nil], (congrArg State.rxcnt hw :), congrArg State.pos hw,
      absurd rfl⟩
  | push chunk hi hc =>
    obtain ⟨es, app, left, hchunk, hp⟩ := execPush_pushed chunk s
    exact ⟨es, app, congrArg State.out hp.writes, hp.bytes, congrArg State.rxcnt hp.writes, congrArg State.pos hp.writes,
      fun _ => ⟨chunk, hi, left, hchunk.symm⟩⟩
  | clr hi => exact absurd hi hclr
  | rst hi => exact absurd hi hrst
  | result r hp => exact ⟨[], [], by simp⟩

/-! ### The invariant -/

/-- What every named operation keeps, every instruction that answers keeps. -/
theorem exec_keeps {P : State → Prop}
    (take : ∀ s e k, P s → fdStep s.buf = .progress e k → evAccepts s = true → P (takeStep e k s))
    (app : ∀ s b, P s → rxOpen s = true → P (bufAppend b s))
    (back : ∀ s q, P s → P (setInput q s)) (clear : ∀ s, P s → P (clearBuf s)) (reset : ∀ s, P s → P (resetFd s))
    (result : ∀ s i r, P s → P (deliver i r s)) {i : Instr} {s t : State} (hs : P s) (h : exec i s = .next t) : P t := by
  cases exec_effect h with
  | extract hd =>
    obtain h | ⟨e, k, hp, ha, h⟩ := applyStep_cases (fdStep s.buf) s
    · rw [h]
      exact hs
    · rw [h]
      exact take s e k hs hp ha
  | push chunk hi hc => exact pushBytes_keeps take app back chunk _ (drain_keeps take s hs)
  | clr hi => exact clear s hs
  | rst hi => exact reset s hs
  | result r hp => exact result s i r hs

/-- What every named operation and the consumer's word keep, every step keeps. -/
theorem step_keeps {P : State → Prop}
    (take : ∀ s e k, P s → fdStep s.buf = .progress e k → evAccepts s = true → P (takeStep e k s))
    (app : ∀ s b, P s → rxOpen s = true → P (bufAppend b s))
    (back : ∀ s q, P s → P (setInput q s)) (clear : ∀ s, P s → P (clearBuf s)) (reset : ∀ s, P s → P (resetFd s))
    (result : ∀ s i r, P s → P (deliver i r s)) (ev : ∀ s n, P s → P (setEvAccept n s)) {s t : State} (hs : P s)
    (h : step s = .next t) : P t := by
  cases step_effect h with
  | extract i q hq hr hd hx => exact exec_keeps take app back clear reset result (back s q hs) hx
  | transaction tr q i ht hn hf hrx hx => exact exec_keeps take app back clear reset result (back s q hs) hx
  | accept b q hr hc ht => exact app _ b (back s q hs) (takeTransaction_onRx ht rfl).1
  | env n q ht => exact ev _ n (back s q hs)
  | nothing q hr hq => exact back s q hs

theorem inv_takeStep {s : State} {e : Event} {k : Nat} (h : Inv s) (hp : fdStep s.buf = .progress e k) :
    Inv (takeStep e k s) where
  counts := by
    rw [CountsAgree, takeStep_counts (fdStep_consumes hp).le]
    exact h.counts
  records := by
    intro r hr
    obtain hr | hr := List.mem_append.mp hr
    · exact h.records r hr
    · rw [List.mem_singleton.mp hr]
      exact fdStep_recordSound hp
  capacity := fun c hc => (List.length_drop ▸ Nat.sub_le _ _).trans (h.capacity c hc)

theorem inv_bufAppend {s : State} (b : Byte) (h : Inv s) (hopen : rxOpen s = true) : Inv (bufAppend b s) where
  counts := by
    have := h.counts
    simp only [CountsAgree, bufAppend_rxcnt, bufAppend_pos, bufAppend_buf, List.length_append, List.length_singleton] at this ⊢
    omega
  records := h.records
  capacity := fun c hc => by
    rw [bufAppend_buf, List.length_append]
    exact (rxOpen_iff s).mp hopen c hc

theorem inv_clearBuf {s : State} (h : Inv s) : Inv (clearBuf s) :=
  ⟨h.counts, h.records, fun _ _ => Nat.zero_le _⟩

theorem inv_resetFd (s : State) : Inv (resetFd s) := ⟨rfl, (fun _ he => nomatch he), fun _ _ => Nat.zero_le _⟩

/-- Settles O30: each named operation keeps the counts, the records and the capacity. -/
theorem everyStepKeepsTheInvariant : Obligations.EveryStepKeepsTheInvariant := fun _ _ hs h =>
  step_keeps (fun _ _ _ hs hp _ => inv_takeStep hs hp) (fun _ b hs hopen => inv_bufAppend b hs hopen)
    (fun _ _ hs => ⟨hs.counts, hs.records, hs.capacity⟩) (fun _ hs => inv_clearBuf hs) (fun s _ => inv_resetFd s)
    (fun _ _ _ hs => ⟨hs.counts, hs.records, hs.capacity⟩) (fun _ _ hs => ⟨hs.counts, hs.records, hs.capacity⟩) hs h

/-! ### Where EV always accepts -/

/-- What an instruction that answers does to BUF where EV always accepts: it leaves it quiescent, or no longer than it was. -/
theorem exec_flow {i : Instr} {s t : State} (hev : EvAlways s) (hcap : CapacityOk s) (h : exec i s = .next t) :
    EvAlways t ∧ CapacityOk t ∧ t.input = s.input ∧
      (quiescent t.buf = true ∨ (quiescent s.buf = false ∧ t.buf.length ≤ s.buf.length)) := by
  cases exec_effect h with
  | extract hd =>
    obtain h | ⟨e, k, hp, ha, h⟩ := applyStep_cases (fdStep s.buf) s
    · rw [h]
      cases hq : quiescent s.buf <;> simp [hev, hcap]
    · rw [h]
      refine ⟨?_, hcap, rfl, .inr ⟨not_quiescent_of_progress hp, ?_⟩⟩
      · rw [EvAlways, takeStep_evAccept, hev]
        rfl
      · rw [takeStep_buf, List.length_drop]
        exact Nat.sub_le _ _
  | push chunk hi hc =>
    rw [pushBytes_drain chunk s hev hcap]
    refine ⟨evAlways_drain hev, ?_, drain_input _, .inl (quiescent_drain hev)⟩
    rw [CapacityOk, drain_cfg]
    exact hcap
  | clr hi => exact ⟨hev, hcap, rfl, .inl rfl⟩
  | rst hi => exact ⟨hev, hcap, rfl, .inl rfl⟩
  | result r hp =>
    refine ⟨hev, hcap, rfl, ?_⟩
    cases hq : quiescent s.buf <;> simp [hq]

/-- What a step does to BUF where EV always accepts, now and later. -/
theorem step_flow {s t : State} (hev : EvAlways s) (hcap : CapacityOk s) (hlater : ∀ n, Transaction.evAccept n ∉ s.input)
    (h : step s = .next t) :
    EvAlways t ∧ CapacityOk t ∧ (∀ u ∈ t.input, u ∈ s.input) ∧
      (quiescent t.buf = true ∨ (quiescent s.buf = false ∧ t.buf.length ≤ s.buf.length) ∨
        ∃ b, Transaction.rx b ∈ s.input ∧ quiescent s.buf = true ∧ t.buf = s.buf ++ [b]) := by
  cases step_effect h with
  | extract i q hq hr hd hx =>
    obtain ⟨hev', hcap', hin, hbuf⟩ := exec_flow (s := setInput q s) hev hcap hx
    refine ⟨hev', hcap', fun u hu => ?_, hbuf.imp_right .inl⟩
    rw [hin] at hu
    obtain ⟨rfl, -⟩ | ht := hq
    · exact hu
    · exact (takeTransaction_mem ht).2 u hu
  | transaction tr q i ht hn hf hrx hx =>
    obtain ⟨hev', hcap', hin, hbuf⟩ := exec_flow (s := setInput q s) hev hcap hx
    refine ⟨hev', hcap', fun u hu => ?_, hbuf.imp_right .inl⟩
    rw [hin] at hu
    exact (takeTransaction_mem ht).2 u hu
  | accept b q hr hc ht =>
    obtain ⟨hmem, hsub⟩ := takeTransaction_mem ht
    exact ⟨hev, hcap, hsub, .inr (.inr ⟨b, hmem, quiescent_of_not_ready hev hr, rfl⟩)⟩
  | env n q ht => exact absurd (takeTransaction_mem ht).1 (hlater n)
  | nothing q hr hq =>
    refine ⟨hev, hcap, fun u hu => ?_, .inl (quiescent_of_not_ready hev hr)⟩
    obtain ⟨rfl, -⟩ | ht := hq
    · exact hu
    · exact (takeTransaction_mem ht).2 u hu

/-- Settles O56: BUF grows by one byte at a time and from a quiescent BUF alone, which holds at most 258. -/
theorem everyStepKeepsRxFlowing : Obligations.EveryStepKeepsRxFlowing := by
  intro s t hs h
  obtain ⟨hev, hcap, hsub, hbuf⟩ := step_flow hs.ev hs.cap hs.later h
  refine ⟨⟨hev, hcap, ?_, fun n hn => hs.later n (hsub _ hn)⟩, rxOpen_of_quiescent hcap⟩
  obtain hq | ⟨-, hle⟩ | ⟨b, -, hq, hb⟩ := hbuf
  · exact (length_le_of_quiescent hq).trans (by decide)
  · exact hle.trans hs.short
  · rw [hb, List.length_append]
    exact Nat.succ_le_succ (length_le_of_quiescent hq)

/-- Settles O32: without a byte on RX alone a quiescent BUF stays quiescent. -/
theorem everyStepKeepsTheDecoderAtRest : Obligations.EveryStepKeepsTheDecoderAtRest := by
  intro s t hs h
  obtain ⟨hev, hcap, hsub, hbuf⟩ := step_flow hs.ev hs.cap hs.later h
  have hq : quiescent t.buf = true := by
    obtain hq | ⟨hnot, -⟩ | ⟨b, hb, -, -⟩ := hbuf
    · exact hq
    · rw [hs.quiet] at hnot
      cases hnot
    · exact absurd hb (hs.whole b)
  exact ⟨⟨hev, hcap, hq, fun n hn => hs.later n (hsub _ hn), fun b hb => hs.whole b (hsub _ hb)⟩,
    length_le_of_quiescent hq⟩

/-! ### Reset and clear -/

/-- Settles O1. -/
theorem resetStateIsEmptyAndIdle : Obligations.ResetStateIsEmptyAndIdle := ⟨⟨rfl, rfl, rfl, rfl⟩, rfl, rfl⟩

/-- Settles O2. -/
theorem rstClearsBufCountersAndHistory : Obligations.RstClearsBufCountersAndHistory := fun _ => rfl

/-- Settles O3: what is discarded is counted in POS, and there is nothing left to discard. -/
theorem clrDiscardsPendingBytesSilently : Obligations.ClrDiscardsPendingBytesSilently :=
  fun s => ⟨clearBuf s, rfl, rfl, fun hc => hc.symm, rfl⟩

/-- Settles O31. -/
theorem resetMeetsTheInvariant : Obligations.ResetMeetsTheInvariant := inv_resetFd State.reset

/-- Settles O33: no action waits, and each table is the placeholder. -/
theorem resetMeetsThePremisesOfARun : Obligations.ResetMeetsThePremisesOfARun :=
  ⟨⟨rfl, rfl, rfl, (fun _ h => nomatch h), fun _ h => nomatch h⟩, ⟨rfl, rfl, rfl, rfl⟩, fun t => by cases t <;> decide, rfl, rfl⟩

/-- Settles O57. -/
theorem resetIsFlowing : Obligations.ResetIsFlowing := ⟨⟨rfl, rfl, by decide, fun _ h => nomatch h⟩, rfl⟩

end Sys2Proof.Machine
end

/-! ## What a step runs and what it refuses (20_memory.md sections 3, 5 and 6, 44_boundary_collaborators.md section 3) -/
section
namespace Sys2Proof.Machine

/-! ### The step, case by case of what stands first -/

/-- The Frame Decoder's own step, where no port but RX acts next (rules R131, R133). -/
theorem step_of_ready {s : State} {i : Instr} (hr : fdReady s = true) (ho : onlyRxNext s.input = true)
    (hd : decodeFront s.buf = .ok i) : step s = exec i s := by
  rw [step_eq, fetch, hr, ho, Bool.and_self, if_pos rfl, fdMove, hr, if_pos rfl, hd]
  rfl

/-- Elsewhere the first action that can be taken is taken. -/
theorem step_of_take {s : State} {t : Transaction} {q : List Transaction} (hno : (fdReady s && onlyRxNext s.input) = false)
    (ht : takeTransaction (rxOpen s) s.input = some (t, q)) : step s = answer (fetchTransaction t (setInput q s)) := by
  rw [step_eq, fetch, hno, if_neg Bool.false_ne_true, ht]

/-- An action of another port than RX is taken where it stands first (rules R183, R196). -/
theorem step_of_head {s : State} {t : Transaction} {q : List Transaction} (hi : s.input = t :: q) (hrx : t.onRx = false) :
    step s = answer (fetchTransaction t (setInput q s)) := by
  apply step_of_take
  · simp [hi, onlyRxNext, hrx]
  · simp [hi, takeTransaction, hrx]

/-- An action of RX is taken where it stands first, RX is open and no extraction step can be taken (rules R54, R131). -/
theorem step_of_rx {s : State} {t : Transaction} {q : List Transaction} (hi : s.input = t :: q) (hr : fdReady s = false)
    (hopen : rxOpen s = true) : step s = answer (fetchTransaction t (setInput q s)) := by
  apply step_of_take
  · simp [hr]
  · simp [hi, takeTransaction, hopen]

/-- Nothing can move: the state stays (rules R140, R204). -/
theorem step_of_nothing {s : State} (hr : fdReady s = false) (ht : takeTransaction (rxOpen s) s.input = none) :
    step s = .next s := by
  rw [step_eq, fetch, hr, Bool.false_and, if_neg Bool.false_ne_true, ht]
  rfl

theorem answer_fdMove_of_ready {s : State} {i : Instr} (hr : fdReady s = true) (hd : decodeFront s.buf = .ok i) :
    answer (fdMove s) = exec i s := by
  rw [fdMove, hr, if_pos rfl, hd]
  rfl

theorem answer_fdMove_of_not_ready {s : State} (hr : fdReady s = false) : answer (fdMove s) = .next s := by
  rw [fdMove, hr, if_neg Bool.false_ne_true]
  rfl

theorem answer_fetchTransaction_cmd {code : OpCode} {operands : Operands} {i : Instr} (s : State)
    (hd : decodeCmd code operands = .ok i) : answer (fetchTransaction (.cmd code operands) s) = exec i s := by
  rw [fetchTransaction, hd]
  rfl

/-- Where RX is blocked, its actions stay and the first action of another port is taken (rule R54; log 6). -/
theorem takeTransaction_blocked {blocked q : List Transaction} {t : Transaction} (hb : ∀ u ∈ blocked, u.onRx = true)
    (ht : t.onRx = false) : takeTransaction false (blocked ++ t :: q) = some (t, blocked ++ q) := by
  induction blocked with
  | nil => simp [takeTransaction, ht]
  | cons u blocked ih =>
    obtain ⟨hu, hb⟩ := List.forall_mem_cons.mp hb
    simp [takeTransaction, hu, ih hb]

theorem takeTransaction_all_blocked {l : List Transaction} (hl : ∀ u ∈ l, u.onRx = true) :
    takeTransaction false l = none := by
  induction l with
  | nil => rfl
  | cons u l ih =>
    obtain ⟨hu, hl⟩ := List.forall_mem_cons.mp hl
    simp [takeTransaction, hu, ih hl]

/-- An action of another port behind a blocked RX is taken as if it stood first. -/
theorem step_of_blocked {s : State} {blocked q : List Transaction} {t : Transaction} (hr : fdReady s = false)
    (hopen : rxOpen s = false) (hb : ∀ u ∈ blocked, u.onRx = true) (ht : t.onRx = false) (hi : s.input = blocked ++ t :: q) :
    step s = step { s with input := t :: (blocked ++ q) } := by
  rw [step_of_take (by rw [hr]; rfl) (by rw [hopen, hi]; exact takeTransaction_blocked hb ht),
    step_of_head (s := { s with input := t :: (blocked ++ q) }) rfl ht]
  rfl

/-- Settles O9: each clause is the equation of the step for what stands first. -/
theorem stepRunsTheDecodedInstruction : Obligations.StepRunsTheDecodedInstruction := by
  refine ⟨fun s q => ⟨?_, ?_, ?_, ?_⟩, fun s i e k hp ha hd => ⟨?_, ?_, ?_, ?_⟩,
    fun s hstop => ⟨?_, ?_, ?_, ?_, ?_, ?_⟩⟩
  · exact fun hi => step_of_head hi rfl
  · exact fun hi => step_of_head hi rfl
  · exact fun code operands i hi hd => (step_of_head hi rfl).trans (answer_fetchTransaction_cmd _ hd)
  · exact fun n hi => step_of_head hi rfl
  · exact fun hi => step_of_ready (fdReady_of_progress hp ha) (by rw [hi]; rfl) hd
  · exact fun q chunk hi => step_of_ready (fdReady_of_progress hp ha) (by rw [hi]; rfl) hd
  · exact fun q b hi => step_of_ready (fdReady_of_progress hp ha) (by rw [hi]; rfl) hd
  · exact fun q hi => (step_of_head hi rfl).trans
      (answer_fdMove_of_ready (s := setInput q s) (fdReady_of_progress hp ha) hd)
  all_goals have hr : fdReady s = false := fdReady_eq_false_iff.mpr hstop
  · exact fun q chunk hi hopen => step_of_rx hi hr hopen
  · exact fun q b hi hopen hcap => (step_of_rx hi hr hopen).trans (acceptByte_next.mpr ⟨hcap, rfl⟩)
  · exact fun q hi => (step_of_head hi rfl).trans (answer_fdMove_of_not_ready (s := setInput q s) hr)
  · exact fun hi => step_of_nothing hr (by rw [hi]; rfl)
  · exact fun hopen hall => step_of_nothing hr (by rw [hopen]; exact takeTransaction_all_blocked hall)
  · exact fun blocked t q hopen hb ht hi => step_of_blocked hr hopen hb ht hi

/-! ### Refusals -/

/-- The reserved codes on port CMD are refused under their names (rules R73, R194 (b)). -/
theorem step_of_reserved {s : State} {code : OpCode} {operands : Operands} {q : List Transaction} (hcode : code.toNat ≤ 2)
    (hi : s.input = .cmd code operands :: q) : step s = .refused (.reservedCode code) := by
  rw [step_of_head hi rfl, fetchTransaction]
  have hcases : code = 0x0 ∨ code = 0x1 ∨ code = 0x2 := by
    simp only [← BitVec.toNat_inj]
    simp
    omega
  obtain rfl | rfl | rfl := hcases <;> rfl

/-- Settles O10. -/
theorem reservedCodesAreRefused : Obligations.ReservedCodesAreRefused :=
  ⟨fun _ => rfl, fun _ _ _ _ hcode hi => step_of_reserved hcode hi⟩

/-- What port CMD decodes to is the reserved row, or an operation of its own code other than PUSH and CLR (rules R72, R73). -/
theorem decodeCmd_ok {code : OpCode} {operands : Operands} {i : Instr} (h : decodeCmd code operands = .ok i) :
    (code = 0x0 ∧ i = .reserved0) ∨ (code ≠ 0x1 ∧ code ≠ 0x2 ∧ encode i = .op code operands) := by
  unfold decodeCmd at h
  split_ifs at h with hres hzero
  · cases h
    exact .inl ⟨hzero, rfl⟩
  · obtain ⟨h1, h2⟩ := not_or.mp hres
    exact .inr ⟨h1, h2, (encode_of_decodeOp h).1⟩

/-- Port CMD rejects the codes of PUSH and CLR, and operands of another operation (rule R73; log 15). -/
theorem decodeCmd_error {code : OpCode} {operands : Operands} {e : DecodeError} (h : decodeCmd code operands = .error e) :
    ((code = 0x1 ∨ code = 0x2) ∧ e = .reservedOnCmd code) ∨ e = .wrongOperands code := by
  unfold decodeCmd at h
  split_ifs at h with hres hzero
  · cases h
    exact .inl ⟨hres, rfl⟩
  · unfold decodeOp at h
    split at h <;> cases h
    exact .inr rfl

theorem calibrate_eq_none_iff {cfg : Config} {t : TableId} {raw : Raw} :
    calibrate cfg t raw = none ↔ tableWf cfg (tab cfg t) = false := by
  cases hwf : tableWf cfg (tab cfg t) with
  | true => simpa using Option.isSome_iff_ne_none.mp (calibrate_isSome raw hwf)
  | false => simp [calibrate, hwf]

/-- A CAL operation is refused on a malformed table alone, under its name (rule R194 (a)). -/
theorem calOp_refused {t : TableId} {raw : Raw} {op : Instr} {form : Int → Result} {s : State} {r : Refusal} :
    calOp t raw op form s = .refused r ↔ tableWf s.cfg (tab s.cfg t) = false ∧ r = .malformedTable t := by
  rw [← calibrate_eq_none_iff (raw := raw), calOp]
  cases calibrate s.cfg t raw <;> simp [eq_comm (a := r)]

/-- A CK operation with a length limit is refused over the limit alone (rule R194 (c)). -/
theorem ckLimited_refused {limit : Option Nat} {n : Nat} {op : Instr} {res : Result} {s : State} {r : Refusal} :
    ckLimited limit n op res s = .refused r ↔ fits limit n = false ∧ r = .operandTooLong := by
  unfold ckLimited
  cases fits limit n <;> simp [eq_comm (a := r)]

theorem execPush_refused {chunk : List Byte} {s : State} {r : Refusal} (h : execPush chunk s = .refused r) :
    ¬ CapacityOk s ∧ r = .bufferTooSmall := by
  unfold execPush at h
  split at h
  · cases h
  · cases h
    exact ⟨‹_›, rfl⟩

theorem acceptByte_refused {b : Byte} {s : State} {r : Refusal} (h : acceptByte b s = .refused r) :
    ¬ CapacityOk s ∧ r = .bufferTooSmall := by
  unfold acceptByte at h
  split at h
  · cases h
  · cases h
    exact ⟨‹_›, rfl⟩

/-- The Frame Decoder's own move is never refused: its leader selects the step (rule R132). -/
theorem fdMove_not_refused {s : State} {r : Refusal} : answer (fdMove s) ≠ .refused r := by
  intro h
  cases hr : fdReady s with
  | false => rw [answer_fdMove_of_not_ready hr] at h; cases h
  | true =>
    obtain ⟨e, k, hp, -⟩ := progress_of_fdReady hr
    cases hb : s.buf with
    | nil => rw [hb] at hp; cases hp
    | cons b l =>
      have hd : decodeFront s.buf = .ok (decodeLeader b) := by rw [hb]; rfl
      rw [answer_fdMove_of_ready hr hd, exec_of_decodeFront hd] at h
      cases h

/-- A step is refused only by an action of the surroundings, the one that was taken. -/
theorem step_refused {s : State} {r : Refusal} (h : step s = .refused r) :
    ∃ t q, takeTransaction (rxOpen s) s.input = some (t, q) ∧ answer (fetchTransaction t (setInput q s)) = .refused r := by
  rw [step_eq, fetch] at h
  split at h
  · exact absurd h fdMove_not_refused
  · cases ht : takeTransaction (rxOpen s) s.input with
    | none => rw [ht] at h; cases h
    | some p => rw [ht] at h; exact ⟨p.1, p.2, rfl, h⟩

/-- The situations in which an operation that port CMD has decoded is refused. -/
theorem exec_cmd_refused {s : State} {code : OpCode} {operands : Operands} {i : Instr} {r : Refusal}
    (hd : decodeCmd code operands = .ok i) (h : exec i s = .refused r) :
    (code.toNat ≤ 2 ∧ r = .reservedCode code) ∨
    (∃ t raw, (i = .interp t raw ∨ (t = .tempA ∧ i = .tempa raw) ∨ (t = .tempB ∧ i = .tempb raw) ∨
        (t = .press ∧ i = .press raw) ∨ (t = .volt ∧ i = .volt raw)) ∧
      tableWf s.cfg (tab s.cfg t) = false ∧ r = .malformedTable t) ∨
    (∃ bytes, (i = .csum bytes ∨ i = .verify bytes) ∧ fits s.cfg.csumMaxLen bytes.length = false ∧ r = .operandTooLong) ∨
    (∃ dst src sid data, i = .build dst src sid data ∧ fits s.cfg.buildMaxData data.length = false ∧
      r = .operandTooLong) := by
  obtain ⟨rfl, rfl⟩ | ⟨h1, h2, henc⟩ := decodeCmd_ok hd
  · cases h
    exact .inl ⟨by decide, rfl⟩
  cases i with
  | x88 => cases henc
  | x66 => cases henc
  | x77 => cases henc
  | xuds header => cases henc
  | xnoise byte => cases henc
  | reserved0 => cases henc; cases h; exact .inl ⟨by decide, rfl⟩
  | push chunk => cases henc; exact absurd rfl h1
  | clr => cases h
  | csum bytes => exact .inr (.inr (.inl ⟨bytes, .inl rfl, ckLimited_refused.mp h⟩))
  | verify bytes => exact .inr (.inr (.inl ⟨bytes, .inr rfl, ckLimited_refused.mp h⟩))
  | build dst src sid data => exact .inr (.inr (.inr ⟨dst, src, sid, data, rfl, ckLimited_refused.mp h⟩))
  | acks n => cases h
  | ackp n => cases h
  | interp t raw => exact .inr (.inl ⟨t, raw, .inl rfl, calOp_refused.mp h⟩)
  | tempa raw => exact .inr (.inl ⟨.tempA, raw, .inr (.inl ⟨rfl, rfl⟩), calOp_refused.mp h⟩)
  | tempb raw => exact .inr (.inl ⟨.tempB, raw, .inr (.inr (.inl ⟨rfl, rfl⟩)), calOp_refused.mp h⟩)
  | press raw => exact .inr (.inl ⟨.press, raw, .inr (.inr (.inr (.inl ⟨rfl, rfl⟩))), calOp_refused.mp h⟩)
  | volt raw => exact .inr (.inl ⟨.volt, raw, .inr (.inr (.inr (.inr ⟨rfl, rfl⟩))), calOp_refused.mp h⟩)
  | rst => cases h

/-- Settles O11: by the action that was taken, and for a command by what it decodes to. -/
theorem stepRefusesOnlyTheSpecsSituations : Obligations.StepRefusesOnlyTheSpecsSituations := by
  intro s r h
  obtain ⟨t, q, ht, ha⟩ := step_refused h
  cases t with
  | push chunk =>
    obtain ⟨hcap, rfl⟩ := execPush_refused ha
    exact .inl ⟨_, q, ht, rfl, hcap, rfl⟩
  | rx b =>
    obtain ⟨hcap, rfl⟩ := acceptByte_refused ha
    exact .inl ⟨_, q, ht, rfl, hcap, rfl⟩
  | clr => cases ha
  | rst => cases ha
  | evAccept n => cases ha
  | idle => exact absurd ha fdMove_not_refused
  | cmd code operands =>
    refine .inr ⟨code, operands, q, ht, ?_⟩
    cases hd : decodeCmd code operands with
    | error e =>
      rw [fetchTransaction, hd] at ha
      cases ha
      obtain ⟨hcode, rfl⟩ | rfl := decodeCmd_error hd
      · exact .inl ⟨by obtain rfl | rfl := hcode <;> decide, rfl⟩
      · exact .inr (.inl ⟨rfl, rfl⟩)
    | ok i =>
      rw [answer_fetchTransaction_cmd _ hd] at ha
      obtain hres | ⟨t, raw, hi, hwf⟩ | ⟨bytes, hi, hfit⟩ | ⟨dst, src, sid, data, hi, hfit⟩ := exec_cmd_refused hd ha
      · exact .inl hres
      · exact .inr (.inr (.inl ⟨t, raw, by simpa using hi, hwf⟩))
      · exact .inr (.inr (.inr (.inl ⟨bytes, by simpa using hi, hfit⟩)))
      · exact .inr (.inr (.inr (.inr ⟨dst, src, sid, data, by rw [hi], hfit⟩)))

/-! ### Single steps, one after the other -/

theorem stepN_succ {n : Nat} {s t : State} (h : step s = .next t) : stepN (n + 1) s = stepN n t := by
  rw [stepN, h]

theorem stepN_one (s : State) : stepN 1 s = step s := by
  unfold stepN
  cases step s <;> rfl

theorem stepN_add {m n : Nat} {s t : State} (h : stepN m s = .next t) : stepN (m + n) s = stepN n t := by
  induction m generalizing s with
  | zero => cases h; rw [Nat.zero_add]
  | succ m ih =>
    cases hs : step s with
    | next u =>
      rw [stepN_succ hs] at h
      rw [Nat.add_right_comm, stepN_succ hs, ih h]
    | fault f => cases f
    | refused r => rw [stepN, hs] at h; cases h

/-- Where EV accepts and the step makes progress, the leader selects it and it is taken. -/
theorem exec_leader_of_progress {s : State} {e : Event} {k : Nat} (hp : fdStep s.buf = .progress e k)
    (ha : evAccepts s = true) : ∃ i, decodeFront s.buf = .ok i ∧ exec i s = .next (takeStep e k s) := by
  cases hb : s.buf with
  | nil => rw [hb] at hp; cases hp
  | cons b l =>
    have hd : decodeFront s.buf = .ok (decodeLeader b) := by rw [hb]; rfl
    exact ⟨_, by rw [← hb, hd], exec_of_progress hd hp ha⟩

/-- An extraction step reads nothing that the surroundings do next. -/
theorem Extraction.setInput {s t : State} {es : List Event} (h : Extraction s es t) (q : List Transaction) :
    Extraction (setInput q s) es (setInput q t) := by
  induction h with
  | done s => exact .done _
  | step hp ha _ ih => exact .step hp ha ih

/-- A chain of extraction steps is as many steps of the machine, where only RX acts next. -/
theorem stepN_extraction {s t : State} {es : List Event} (h : Extraction s es t) (ho : onlyRxNext s.input = true) :
    stepN es.length s = .next t := by
  induction h with
  | done s => rfl
  | @step s t e k es hp ha rest ih =>
    obtain ⟨i, hd, hx⟩ := exec_leader_of_progress hp ha
    rw [List.length_cons, stepN_succ ((step_of_ready (fdReady_of_progress hp ha) ho hd).trans hx)]
    exact ih ho

/-- A chain of extraction steps is as many steps of the machine, where the surroundings are idle for as many actions. -/
theorem stepN_idles {s t : State} {es : List Event} (h : Extraction s es t) (q : List Transaction) :
    stepN es.length (setInput (List.replicate es.length .idle ++ q) s) = .next (setInput q t) := by
  induction h with
  | done s => rfl
  | @step s t e k es hp ha rest ih =>
    let r := List.replicate es.length .idle ++ q
    obtain ⟨i, hd, hx⟩ := exec_leader_of_progress (s := setInput r s) hp ha
    have hstep : step (setInput (.idle :: r) s) = .next (takeStep e k (setInput r s)) := by
      rw [step_of_head (s := setInput (.idle :: r) s) (t := .idle) (q := r) rfl rfl, ← hx]
      exact answer_fdMove_of_ready (fdReady_of_progress hp ha) hd
    rw [List.length_cons, List.replicate_succ, List.cons_append, stepN_succ hstep]
    exact ih

/-- Behind as many idles as the chain has steps an action of another port than RX lands on the state the chain leads to. -/
theorem stepN_idles_then {s t : State} {es : List Event} (h : Extraction s es t) {tr : Transaction} (hrx : tr.onRx = false)
    (q : List Transaction) : stepN (es.length + 1) (setInput (List.replicate es.length .idle ++ tr :: q) s) =
      answer (fetchTransaction tr (setInput q t)) := by
  rw [stepN_add (stepN_idles h _), stepN_one]
  exact step_of_head (s := setInput (tr :: q) t) rfl hrx

/-- RX hands over the byte that stands first, where it is open and no extraction step can be taken (rule R54). -/
theorem step_rx {s : State} {b : Byte} (q : List Transaction) (hr : fdReady s = false) (hopen : rxOpen s = true)
    (hcap : CapacityOk s) : step (setInput (.rx b :: q) s) = .next (setInput q (bufAppend b s)) := by
  rw [step_of_rx (s := setInput (.rx b :: q) s) (t := .rx b) (q := q) rfl hr hopen]
  exact acceptByte_next.mpr ⟨hcap, rfl⟩

/-- Settles O54: the idles take the chain, and the action behind them lands then; a CLR behind a byte finds it pending. -/
theorem controlLandsBetweenAnyTwoActions : Obligations.ControlLandsBetweenAnyTwoActions := by
  refine ⟨fun s t es q hx => ⟨?_, ?_, fun code operands i u hd hu => ?_⟩, fun s b q hstop hopen hcap => ?_⟩
  · exact stepN_idles_then hx (tr := .clr) rfl q
  · exact stepN_idles_then hx (tr := .rst) rfl q
  · refine (stepN_idles_then hx (tr := .cmd code operands) rfl q).trans ?_
    rw [answer_fetchTransaction_cmd _ hd]
    exact hu
  · refine (stepN_succ (step_rx (b := b) (.clr :: q) (fdReady_eq_false_iff.mpr hstop) hopen hcap)).trans ?_
    rw [stepN_one, step_of_head (t := .clr) (q := q) rfl rfl]
    simp [fetchTransaction, answer, exec, execClr, clearBuf, setInput, bufAppend]

/-- The bytes of a chunk handed over one by one lead to the state that drains the whole chunk (rules R45, R131). -/
theorem stepN_rx (chunk : List Byte) : ∀ s : State, EvAlways s → CapacityOk s →
    ∃ n, stepN n (setInput (chunk.map .rx) s) = .next (setInput [] (drain (receive chunk s))) := by
  induction chunk with
  | nil =>
    intro s hev hcap
    obtain ⟨es, hx, -⟩ := drain_extraction s
    exact ⟨es.length, by rw [receive_nil]; exact stepN_extraction (hx.setInput []) rfl⟩
  | cons b C ih =>
    intro s hev hcap
    obtain ⟨es, hx, hstop⟩ := drain_extraction s
    have hcap' : CapacityOk (drain s) := by rw [CapacityOk, drain_cfg]; exact hcap
    have hopen : rxOpen (drain s) = true := rxOpen_of_quiescent hcap' (quiescent_drain hev)
    obtain ⟨n, hn⟩ := ih (bufAppend b (drain s)) (evAlways_drain hev) hcap'
    refine ⟨es.length + (n + 1), ?_⟩
    rw [stepN_add (stepN_extraction (hx.setInput ((b :: C).map .rx)) rfl), List.map_cons,
      stepN_succ (step_rx (C.map .rx) hstop hopen hcap'), hn, ← receive_cons, drain_receive_drain]

/-- Settles O55: the single bytes lead to the drained state, where there is nothing to do. -/
theorem pushIsItsAtomicActions : Obligations.PushIsItsAtomicActions := by
  intro s t chunk hev hcap hi hpush
  rw [exec_push chunk hev hcap] at hpush
  cases hpush
  have hin : (drain (receive chunk s)).input = [] := by rw [drain_input]; exact hi
  have hset : setInput [] (drain (receive chunk s)) = drain (receive chunk s) := by rw [← hin]; rfl
  obtain ⟨n, hn⟩ := stepN_rx chunk s hev hcap
  rw [hset] at hn
  exact ⟨n, hn, step_of_nothing (fdReady_drain _) (by rw [hin]; rfl)⟩

end Sys2Proof.Machine
end

/-! ## The Checksum Unit, and frames with a corrupted byte (40_checksum_unit.md, 42_frame_decoder.md section 5) -/
section
namespace Sys2Proof.Machine

/-! ### The sum -/

theorem sum8_append_toNat (s t : List Byte) : (sum8 (s ++ t)).toNat = ((sum8 s).toNat + (sum8 t).toNat) % 256 := by
  rw [sum8_append, BitVec.toNat_add]

theorem sum8_perm {s t : List Byte} (h : s.Perm t) : sum8 s = sum8 t := by
  rw [sum8, sum8, (h.map BitVec.toNat).sum_eq]

/-- Changing one byte changes the sum (rule R97 (a)). -/
theorem sum8_set_ne {s : List Byte} {i : Nat} {b : Byte} (hi : i < s.length) (hne : s[i]? ≠ some b) :
    sum8 (s.set i b) ≠ sum8 s := by
  induction s generalizing i with
  | nil => simp at hi
  | cons a s ih =>
    cases i with
    | zero =>
      rw [List.set_cons_zero, sum8_cons, sum8_cons, Ne, BitVec.add_left_inj]
      rintro rfl
      exact hne rfl
    | succ i =>
      rw [List.set_cons_succ, sum8_cons, sum8_cons, Ne, BitVec.add_right_inj]
      exact ih (Nat.lt_of_succ_lt_succ hi) hne

/-- Changing one byte of a closed sequence, its checksum included, is detected (rule R97 (a)). -/
theorem checksumOk_set_close {s : List Byte} {i : Nat} {b : Byte} (hi : i < (close s).length)
    (hne : (close s)[i]? ≠ some b) : checksumOk ((close s).set i b) = false := by
  unfold close at *
  obtain hlt | hge := Nat.lt_or_ge i s.length
  · rw [List.set_append_left _ _ hlt, checksumOk_concat, beq_eq_false_iff_ne]
    rw [List.getElem?_append_left hlt] at hne
    exact (sum8_set_ne hlt hne).symm
  · obtain rfl : i = s.length := by
      rw [List.length_append, List.length_singleton] at hi
      omega
    rw [List.set_append_right _ _ le_rfl, Nat.sub_self, List.set_cons_zero, checksumOk_concat, beq_eq_false_iff_ne]
    rintro rfl
    simp at hne

/-- Settles O38. -/
theorem csumIsTheSumModulo256 : Obligations.CsumIsTheSumModulo256 := fun s bytes hfits =>
  ⟨sum8 bytes, sum8_toNat_eq_byteSum bytes, ckLimited_of_fits hfits _ _ s⟩

/-- Settles O41. -/
theorem acknowledgementsAreFiveBytes : Obligations.AcknowledgementsAreFiveBytes := fun _ _ => ⟨rfl, rfl⟩

/-- Settles O42: the sum is a homomorphism into the bytes under addition. -/
theorem sumLaws : Obligations.SumLaws := by
  refine ⟨sum8_append_toNat, fun s b => ?_, fun s t h => sum8_perm h, fun s t => ?_, fun s => ?_⟩
  · rw [sum8_append_toNat, sum8_singleton]
  · rw [sum8_append, sum8_append, sum8_append, sum8_singleton, show sum8 s + 0x00 = sum8 s from BitVec.add_zero _]
  · rw [sum8_append_toNat, sum8_singleton, two_mul]

theorem verifyBit_close {s : List Byte} (h : s ≠ []) : verifyBit (s ++ [sum8 s]) = true := by
  rw [verifyBit_concat s _ h, beq_self_eq_true]

/-- From two bytes on VERIFY is the checksum test (rule R91). -/
theorem verifyBit_eq_checksumOk {s : List Byte} (h : 2 ≤ s.length) : verifyBit s = checksumOk s :=
  if_neg (Nat.not_lt.mpr h)

/-- Settles O43: BUILD closes its body. -/
theorem verifyHoldsOfWhatBuildMakes : Obligations.VerifyHoldsOfWhatBuildMakes := by
  refine ⟨fun s h => verifyBit_close (List.ne_nil_of_length_pos h), fun s t dst src sid data f h hres hfits => ?_⟩
  obtain ⟨-, rfl⟩ := ckLimited_next.mp h
  have hf : buildFrame dst src sid data = f := by simpa using hres
  subst hf
  have hbit : verifyBit (buildFrame dst src sid data) = true := verifyBit_close (List.cons_ne_nil _ _)
  rw [← hbit]
  exact ckLimited_of_fits hfits _ _ _

/-- Settles O44: one changed byte changes the sum or the checksum byte, a reordering neither. -/
theorem checksumDetectsOneChangedByte : Obligations.ChecksumDetectsOneChangedByte := by
  refine ⟨fun s i b h hi hne => ?_, fun s t h hperm => ?_⟩
  · rw [verifyBit_eq_checksumOk (by rw [List.length_set, List.length_append]; exact Nat.succ_le_succ h)]
    exact checksumOk_set_close hi hne
  · rw [sum8_perm hperm]
    exact verifyBit_close (List.ne_nil_of_length_pos (hperm.length_eq ▸ h))

/-! ### The frame BUILD makes and the frame the decoder reads -/

theorem classify_buildHeader {n : Nat} (hn : n ≤ 61) (h6 : n ≠ 6) : classify (buildHeader n) = .uds := by
  refine classify_eq_uds_iff.mpr ⟨by rw [buildHeader_toNat]; omega, fun h => ?_⟩
  have := congrArg BitVec.toNat h
  rw [buildHeader_toNat] at this
  simp at this
  omega

/-- The NEED under BUILD's header is one byte more than BUILD makes (conflict C1). -/
theorem need_buildFrame (dst src sid : Byte) {data : List Byte} (C : List Byte) (hn : data.length ≤ 61)
    (h6 : data.length ≠ 6) : need (buildFrame dst src sid data ++ C) = some (data.length + 6) := by
  refine (need_cons_of_uds (classify_buildHeader hn h6)).trans ?_
  rw [udsLen_eq_mod, buildHeader_toNat]
  congr 1
  omega

/-- Settles O45: the header counts a byte that is not there, so the next byte is read as the checksum. -/
theorem buildAndDecoderDisagreeByOneByte : Obligations.BuildAndDecoderDisagreeByOneByte := by
  intro dst src sid data
  have hlen := buildFrame_length dst src sid data
  refine ⟨fun hn h6 => ?_, fun h6 => ?_, _, rfl, by rw [buildHeader_toNat]; omega⟩
  · have hc := classify_buildHeader hn h6
    have hneed := need_buildFrame dst src sid [] hn h6
    rw [List.append_nil] at hneed
    refine ⟨by rw [hneed, hlen], ?_, fun b C => ?_⟩
    · cases hf : fdStep (buildFrame dst src sid data) with
      | idle => cases fdStep_eq_idle_iff.mp hf
      | wait => rfl
      | progress e k =>
        obtain ⟨n, hn', -, hle, -⟩ := fdStep_prefix hf
        rw [hneed] at hn'
        cases hn'
        omega
    · have htake : (buildFrame dst src sid data ++ [b] ++ C).take (data.length + 6) = buildFrame dst src sid data ++ [b] :=
        List.take_left' (by rw [List.length_append, hlen]; rfl)
      have hneed' := need_buildFrame dst src sid ([b] ++ C) hn h6
      rw [← List.append_assoc] at hneed'
      have hle : data.length + 6 ≤ (buildFrame dst src sid data ++ [b] ++ C).length := by
        rw [List.length_append, List.length_append, hlen]
        exact Nat.le_add_right _ _
      obtain ⟨e, hp, -, hok⟩ := fdStep_checked (.inr (.inr hc)) hneed' hle
      refine ⟨e, hp, hok.trans ?_⟩
      rw [← checksumOk_concat, ← htake]
      rfl
  · have h88 : buildHeader data.length = 0x88 := by rw [h6]; decide
    have hd : decodeFront (buildFrame dst src sid data) = .ok (decodeLeader (buildHeader data.length)) := rfl
    rw [hd, h88]
    rfl

/-! ### One corrupted byte -/

/-- NEED is read from the leader and, but for UDS, from the third byte (rule R70). -/
theorem need_congr {h : Byte} {t u : List Byte} (ht : 2 ≤ t.length) (hu : 2 ≤ u.length)
    (htwo : classify h = .uds ∨ (h :: t)[2]? = (h :: u)[2]?) : need (h :: t) = need (h :: u) := by
  have ht' : ¬ (h :: t).length < 3 := by rw [List.length_cons]; omega
  have hu' : ¬ (h :: u).length < 3 := by rw [List.length_cons]; omega
  obtain hc | htwo := htwo
  · rw [need_cons_of_uds hc, need_cons_of_uds hc]
  · have hb : byteAt (h :: t) 2 = byteAt (h :: u) 2 := by
      rw [byteAt, byteAt, List.getD_eq_getElem?_getD, List.getD_eq_getElem?_getD, htwo]
    unfold need
    simp only [if_neg ht', if_neg hu', hb]

/-- A frame with a checksum is closed, has at least four bytes, and a leader of its class (rules R62, R64, R65). -/
theorem WireFrame.bytes_closed {f : WireFrame} (hf : f.wf = true) (hne : ∀ screen, f ≠ .s66 screen) :
    ∃ (h : Byte) (body : List Byte), f.bytes = close (h :: body) ∧ 2 ≤ body.length ∧
      ((classify h = .t88 ∧ ∃ s p, f = .t88 s p) ∨
        (classify h = .c77 ∧ (∃ k p, f = .c77 k p) ∧ (h :: body)[2]? ≠ some 0x00) ∨ classify h = .uds) := by
  cases f with
  | t88 screen p => exact ⟨0x88, screen :: BitVec.ofNat 8 p.length :: p, rfl, by simp, .inl ⟨rfl, screen, p, rfl⟩⟩
  | s66 screen => exact absurd rfl (hne screen)
  | c77 package p =>
    refine ⟨0x77, package :: BitVec.ofNat 8 (p.length + 1) :: p, rfl, by simp, .inr (.inl ⟨rfl, ⟨package, p, rfl⟩, ?_⟩)⟩
    have hp : p.length ≤ 254 := of_decide_eq_true hf
    intro hzero
    have := congrArg BitVec.toNat (Option.some.inj hzero)
    rw [toNat_ofNat_of_lt (by omega)] at this
    cases this
  | uds header dst src sid data =>
    exact ⟨header, dst :: src :: sid :: data, rfl, by simp, .inr (.inr (udsHeader_iff.mp (Bool.and_eq_true_iff.mp hf).1))⟩
  | udsShort header dst src =>
    exact ⟨header, [dst, src], rfl, by simp, .inr (.inr (udsHeader_iff.mp (Bool.and_eq_true_iff.mp hf).1))⟩

theorem getElem?_set_append_ne {l : List Byte} (C : List Byte) {i j : Nat} (b : Byte) (h : i ≠ j) :
    (l.set i b ++ C)[j]? = (l ++ C)[j]? := by
  rw [List.getElem?_append, List.getElem?_append, List.length_set, List.getElem?_set_ne h]

/-- A closed candidate with a changed byte that is neither its leader nor a length byte is as long as before, and its test fails. -/
theorem fdStep_corrupted {h b : Byte} {body C : List Byte} {i : Nat}
    (hclass : classify h = .uds ∨ ((classify h = .t88 ∨ (classify h = .c77 ∧ (h :: body)[2]? ≠ some 0x00)) ∧ i ≠ 2))
    (hbody : 2 ≤ body.length) (hneed : need (close (h :: body) ++ C) = some (close (h :: body)).length) (hpos : 0 < i)
    (hi : i < (close (h :: body)).length) (hchanged : (close (h :: body))[i]? ≠ some b) :
    ∃ e, fdStep ((close (h :: body)).set i b ++ C) = .progress e (close (h :: body)).length ∧
      e.checksumOk? = some false ∧ e.raw = (close (h :: body)).set i b := by
  have hbad := checksumOk_set_close hi hchanged
  have htake : ((close (h :: body)).set i b ++ C).take (close (h :: body)).length = (close (h :: body)).set i b :=
    List.take_left' List.length_set
  have htwo : i ≠ 2 → ((close (h :: body)).set i b ++ C)[2]? = (close (h :: body) ++ C)[2]? := getElem?_set_append_ne C b
  have hle : (close (h :: body)).length ≤ ((close (h :: body)).set i b ++ C).length := by
    rw [List.length_append, List.length_set]
    exact Nat.le_add_right _ _
  obtain ⟨rest, hrest⟩ : ∃ rest, (close (h :: body)).set i b ++ C = h :: rest := by
    obtain ⟨j, rfl⟩ := Nat.exists_eq_add_of_le' hpos
    exact ⟨_, rfl⟩
  rw [hrest] at htwo hle htake ⊢
  have hlong : 2 ≤ rest.length := by
    simp only [close, List.length_append, List.length_cons] at hle
    omega
  have hneed' : need (h :: rest) = some (close (h :: body)).length := by
    rw [← hneed]
    refine need_congr (u := body ++ [sum8 (h :: body)] ++ C) hlong ?_ (hclass.imp_right fun hc => htwo hc.2)
    simp only [List.length_append]
    omega
  have hchecked : classify h = .t88 ∨ (classify h = .c77 ∧ (h :: rest)[2]? ≠ some 0x00) ∨ classify h = .uds := by
    obtain hu | ⟨ht | ⟨hc, hz⟩, h2⟩ := hclass
    · exact .inr (.inr hu)
    · exact .inl ht
    · refine .inr (.inl ⟨hc, ?_⟩)
      rw [htwo h2, close, List.append_assoc, List.getElem?_append_left (by rw [List.length_cons]; omega)]
      exact hz
  obtain ⟨e, hp, hraw, hok⟩ := fdStep_checked hchecked hneed' hle
  rw [htake] at hraw hok
  exact ⟨e, hp, hok.trans (congrArg some hbad), hraw⟩

/-- Settles O29: a frame with a checksum is a closed candidate, whose third byte is a length byte in T88 and C77. -/
theorem oneCorruptedByteCostsTheWholeFrame : Obligations.OneCorruptedByteCostsTheWholeFrame := by
  intro f i b C hf hne hpos hi htwo hchanged
  obtain ⟨h, body, hbytes, hbody, hclass⟩ := WireFrame.bytes_closed hf hne
  have hneed : need (f.bytes ++ C) = some f.bytes.length := by
    rw [← WireFrame.event_raw f]
    exact need_frame (WireFrame.event_sound hf) f.event_kind C
  rw [hbytes] at hneed hi hchanged ⊢
  refine fdStep_corrupted ?_ hbody hneed hpos hi hchanged
  obtain ⟨hc, hf⟩ | ⟨hc, hf, hz⟩ | hu := hclass
  · exact .inr ⟨.inl hc, htwo (.inl hf)⟩
  · exact .inr ⟨.inr ⟨hc, hz⟩, htwo (.inr hf)⟩
  · exact .inl hu

end Sys2Proof.Machine
end

/-! ## The pure units, ghost state, and runs (20_memory.md sections 3 and 5, 10_state.md section 2, 44_boundary_collaborators.md section 3) -/
section
namespace Sys2Proof.Machine

/-! ### CK and CAL as a function of operands and configuration -/

/-- The result of a CK or CAL operation, where its operand is within the limits and its table well-formed. -/
def unitResult (cfg : Config) : Instr → Option Result
  | .csum bytes => if fits cfg.csumMaxLen bytes.length then some (.byte (sum8 bytes)) else none
  | .verify bytes => if fits cfg.csumMaxLen bytes.length then some (.bit (verifyBit bytes)) else none
  | .build dst src sid data => if fits cfg.buildMaxData data.length then some (.bytes (buildFrame dst src sid data)) else none
  | .acks n => some (.bytes (uoksLiteral ++ [n]))
  | .ackp n => some (.bytes (uokpLiteral ++ [n]))
  | .interp t raw => (calibrate cfg t raw).map .phys
  | .tempa raw => (calibrate cfg .tempA raw).map .phys
  | .tempb raw => (calibrate cfg .tempB raw).map .phys
  | .press raw => (calibrate cfg .press raw).map .tenthsOfBar
  | .volt raw => (calibrate cfg .volt raw).map .phys
  | .x88 | .x66 | .x77 | .xuds _ | .xnoise _ | .reserved0 | .push _ | .clr | .rst => none

theorem ckLimited_next_iff {limit : Option Nat} {n : Nat} {op : Instr} {res : Result} {s t : State} :
    ckLimited limit n op res s = .next t ↔
      ∃ r, (if fits limit n then some res else none) = some r ∧ t = deliver op r s := by
  rw [ckLimited_next]
  cases fits limit n <;> simp

theorem calOp_next_iff {t : TableId} {raw : Raw} {op : Instr} {form : Int → Result} {s u : State} :
    calOp t raw op form s = .next u ↔ ∃ r, (calibrate s.cfg t raw).map form = some r ∧ u = deliver op r s := by
  rw [calOp_next]
  cases calibrate s.cfg t raw <;> simp

theorem next_deliver_iff {op : Instr} {res : Result} {s t : State} :
    (.next (deliver op res s) : Host.Outcome State Fault Refusal) = .next t ↔ ∃ r, some res = some r ∧ t = deliver op r s := by
  simp [eq_comm (a := t)]

/-- A CK or CAL operation delivers its result and does nothing else (rules R46, R120). -/
theorem exec_unit_iff {i : Instr} {s t : State} (hu : isCk i = true ∨ isCal i = true) :
    exec i s = .next t ↔ ∃ r, unitResult s.cfg i = some r ∧ t = deliver i r s := by
  cases i with
  | csum bytes => exact ckLimited_next_iff
  | verify bytes => exact ckLimited_next_iff
  | build dst src sid data => exact ckLimited_next_iff
  | acks n => exact next_deliver_iff
  | ackp n => exact next_deliver_iff
  | interp t raw => exact calOp_next_iff
  | tempa raw => exact calOp_next_iff
  | tempb raw => exact calOp_next_iff
  | press raw => exact calOp_next_iff
  | volt raw => exact calOp_next_iff
  | _ => simp [isCk, isCal] at hu

/-- What is neither CK nor CAL does not touch RES. -/
theorem exec_res_of_not_unit {i : Instr} {s t : State} (hu : ¬ (isCk i = true ∨ isCal i = true))
    (h : exec i s = .next t) : t.res = s.res := by
  cases exec_effect h with
  | extract hd =>
    obtain ⟨es, hx⟩ := applyStep_extraction s
    exact (congrArg State.res hx.frame.2 :)
  | push chunk hi hc =>
    obtain ⟨es, app, left, -, hp⟩ := execPush_pushed chunk s
    exact (congrArg State.res hp.writes :)
  | clr hi => rfl
  | rst hi => rfl
  | result r hp => exact absurd hp hu

theorem not_unit_decodeLeader (h : Byte) : ¬ (isCk (decodeLeader h) = true ∨ isCal (decodeLeader h) = true) := by
  unfold decodeLeader
  cases classify h <;> simp [isCk, isCal]

/-- Settles O35: no operation writes the configuration, and what is not a unit of its own leaves RES alone. -/
theorem unitsTouchOnlyTheirOwnState : Obligations.UnitsTouchOnlyTheirOwnState := by
  intro i s t h
  refine ⟨?_, fun hu => ?_, fun hi => exec_res_of_not_unit ?_ h⟩
  · exact exec_keeps (P := fun t => t.cfg = s.cfg) (fun _ _ _ h _ _ => h) (fun _ _ h _ => h) (fun _ _ h => h) (fun _ h => h)
      (fun _ h => h) (fun _ _ _ h => h) rfl h
  · obtain ⟨r, -, ht⟩ := (exec_unit_iff hu).mp h
    exact ⟨r, ht⟩
  · obtain rfl | rfl | ⟨c, rfl⟩ | ⟨b, rfl⟩ := hi
    · simp [isCk, isCal]
    · simp [isCk, isCal]
    · simp [isCk, isCal]
    · exact not_unit_decodeLeader b

/-- Settles O36: only a unit appends to RES, and its result is a function of the configuration. -/
theorem pureUnitsReadOnlyOperandsAndTables : Obligations.PureUnitsReadOnlyOperandsAndTables := by
  intro i s t u r hcfg h hres
  by_cases hu : isCk i = true ∨ isCal i = true
  · obtain ⟨r', hr', rfl⟩ := (exec_unit_iff hu).mp h
    obtain rfl : r' = r := by simpa using hres
    exact (exec_unit_iff hu).mpr ⟨r', hcfg ▸ hr', rfl⟩
  · rw [exec_res_of_not_unit hu h] at hres
    simp at hres

/-! ### Histories in front of a state -/

/-- The counters and histories of `b` put in front of those of s, and what waits in `b` behind what waits in s. -/
def behind (b s : State) : State := { s with
  rxcnt := b.rxcnt + s.rxcnt, pos := b.pos + s.pos, out := b.out ++ s.out, res := b.res ++ s.res, input := s.input ++ b.input }

/-- The answer with its next state changed by f. -/
def mapNext (f : State → State) : Host.Outcome State Fault Refusal → Host.Outcome State Fault Refusal
  | .next t => .next (f t)
  | .fault e => .fault e
  | .refused r => .refused r

theorem mapNext_eq_next {f : State → State} {o : Host.Outcome State Fault Refusal} {t : State}
    (h : mapNext f o = .next t) : ∃ u, o = .next u ∧ t = f u := by
  cases o with
  | next u => cases h; exact ⟨u, rfl, rfl⟩
  | fault e => cases e
  | refused r => cases h

section Behind

variable (b : State)

theorem takeStep_behind (e : Event) (k : Nat) (s : State) : takeStep e k (behind b s) = behind b (takeStep e k s) := by
  simp [takeStep, bufConsume, emit, behind, Nat.add_assoc]

theorem deliver_behind (i : Instr) (r : Result) (s : State) : deliver i r (behind b s) = behind b (deliver i r s) := by
  simp [deliver, behind]

theorem clearBuf_behind (s : State) : clearBuf (behind b s) = behind b (clearBuf s) := by
  simp [clearBuf, behind, Nat.add_assoc]

theorem applyStep_behind (r : StepResult) (s : State) : applyStep r (behind b s) = behind b (applyStep r s) := by
  cases r with
  | idle => rfl
  | wait => rfl
  | progress e k =>
    have ha : evAccepts (behind b s) = evAccepts s := rfl
    rw [applyStep, applyStep, ha, takeStep_behind]
    split <;> rfl

theorem Extraction.behind {s t : State} {es : List Event} (h : Extraction s es t) :
    Extraction (behind b s) es (behind b t) := by
  induction h with
  | done s => exact .done _
  | step hp ha _ ih => exact .step hp ha (by rw [takeStep_behind]; exact ih)

theorem drain_behind (s : State) : drain (behind b s) = behind b (drain s) := by
  obtain ⟨es, hx, hstop⟩ := drain_extraction s
  rw [(hx.behind b).drain_eq, drain_of_not_ready (by exact hstop)]

theorem pushBytes_behind (chunk : List Byte) : ∀ s : State, pushBytes chunk (behind b s) = behind b (pushBytes chunk s) := by
  induction chunk with
  | nil => exact fun _ => rfl
  | cons c C ih =>
    intro s
    have hopen : rxOpen (behind b s) = rxOpen s := rfl
    have happ : bufAppend c (behind b s) = behind b (bufAppend c s) := by simp [bufAppend, behind, Nat.add_assoc]
    rw [pushBytes, pushBytes, hopen]
    split
    · rw [happ, drain_behind, ih]
    · rfl

theorem execExtract_behind (h : Byte) (c : WireClass) (f : List Byte → StepResult) (s : State) :
    execExtract h c f (behind b s) = mapNext (behind b) (execExtract h c f s) := by
  have hbuf : (behind b s).buf = s.buf := rfl
  rw [execExtract, execExtract, hbuf, applyStep_behind]
  split <;> rfl

theorem execPush_behind (chunk : List Byte) (s : State) :
    execPush chunk (behind b s) = mapNext (behind b) (execPush chunk s) := by
  have hcfg : (behind b s).cfg = s.cfg := rfl
  rw [execPush, execPush, hcfg, drain_behind, pushBytes_behind]
  split <;> rfl

theorem ckLimited_behind (limit : Option Nat) (n : Nat) (op : Instr) (r : Result) (s : State) :
    ckLimited limit n op r (behind b s) = mapNext (behind b) (ckLimited limit n op r s) := by
  rw [ckLimited, ckLimited, deliver_behind]
  split <;> rfl

theorem calOp_behind (t : TableId) (raw : Raw) (op : Instr) (form : Int → Result) (s : State) :
    calOp t raw op form (behind b s) = mapNext (behind b) (calOp t raw op form s) := by
  have hcfg : (behind b s).cfg = s.cfg := rfl
  rw [calOp, calOp, hcfg]
  cases calibrate s.cfg t raw with
  | none => rfl
  | some y => exact congrArg _ (deliver_behind b op (form y) s)

/-- No instruction but RST reads or resets the counters and histories: it does the same behind any of them (rules R22, R182). -/
theorem exec_behind {i : Instr} (hi : i ≠ .rst) (s : State) : exec i (behind b s) = mapNext (behind b) (exec i s) := by
  cases i with
  | x88 => exact execExtract_behind b _ _ _ s
  | x66 => exact execExtract_behind b _ _ _ s
  | x77 => exact execExtract_behind b _ _ _ s
  | xuds header => exact execExtract_behind b _ _ _ s
  | xnoise byte => exact execExtract_behind b _ _ (fun _ => xnoise byte) s
  | reserved0 => rfl
  | push chunk => exact execPush_behind b chunk s
  | clr => exact congrArg _ (clearBuf_behind b s)
  | csum bytes => exact ckLimited_behind b _ _ _ _ s
  | verify bytes => exact ckLimited_behind b _ _ _ _ s
  | build dst src sid data => exact ckLimited_behind b _ _ _ _ s
  | acks n => exact congrArg _ (deliver_behind b _ _ s)
  | ackp n => exact congrArg _ (deliver_behind b _ _ s)
  | interp t raw => exact calOp_behind b _ _ _ _ s
  | tempa raw => exact calOp_behind b _ _ _ _ s
  | tempb raw => exact calOp_behind b _ _ _ _ s
  | press raw => exact calOp_behind b _ _ _ _ s
  | volt raw => exact calOp_behind b _ _ _ _ s
  | rst => exact absurd rfl hi

theorem runOps_behind {ops : List Instr} (hops : .rst ∉ ops) (s : State) :
    runOps ops (behind b s) = mapNext (behind b) (runOps ops s) := by
  induction ops generalizing s with
  | nil => rfl
  | cons i ops ih =>
    obtain ⟨hi, hops⟩ := not_or.mp (fun h => hops (List.mem_cons.mpr h))
    rw [runOps, runOps, exec_behind b (Ne.symm hi)]
    cases exec i s with
    | next t => exact ih hops t
    | fault e => rfl
    | refused r => rfl

end Behind

/-- Settles O37: the state is its ghost state in front of the state without it. -/
theorem ghostStateIsNeverRead : Obligations.GhostStateIsNeverRead := by
  intro i s t h
  by_cases hi : i = .rst
  · subst hi
    cases h
    exact ⟨_, rfl, rfl, rfl, rfl, rfl, rfl, absurd rfl⟩
  · let ghost : State := { s with res := [], input := [] }
    have hs : s = behind ghost { s with rxcnt := 0, pos := 0, out := [] } := by simp [behind, ghost]
    rw [hs, exec_behind ghost hi] at h
    obtain ⟨u, hu, rfl⟩ := mapNext_eq_next h
    exact ⟨u, hu, rfl, rfl, rfl, (List.append_nil _).symm, rfl, fun _ => rfl⟩

/-! ### Runs -/

/-- A run from a state with nothing before it: no byte, no event, no result, EV always accepting. -/
def freshState (cfg : Config) : State := { State.reset with cfg := cfg }

/-- After RST a state is what it keeps in front of a fresh one (rule R220). -/
theorem resetFd_eq_behind {s : State} (hev : EvAlways s) : resetFd s = behind (resetFd s) (freshState s.cfg) := by
  have hnone : s.evAccept = none := hev
  simp [resetFd, behind, freshState, State.reset, hnone]

theorem rst_not_mem_of_runOps {ops : List Instr} (hops : RunOps ops) : .rst ∉ ops := fun h => nomatch hops _ h

/-- A run is the run of a fresh state behind what RST keeps. -/
theorem run_eq {s : State} {ops : List Instr} (hops : RunOps ops) (hev : EvAlways s) :
    run ops s = mapNext (behind (resetFd s)) (runOps ops (freshState s.cfg)) := by
  have hrun : run ops s = runOps ops (resetFd s) := rfl
  rw [hrun, ← runOps_behind _ (rst_not_mem_of_runOps hops), ← resetFd_eq_behind hev]

/-- What is observed of a run is what the fresh state shows. -/
theorem observe_behind (s w : State) :
    observe s (behind (resetFd s) w) = { events := w.out, results := w.res, residue := w.buf } := by
  simp [observe, behind]

/-- Settles O53: both runs are the run of one fresh state. -/
theorem aRunShowsNothingFromBeforeIt : Obligations.ARunShowsNothingFromBeforeIt := by
  intro s u t ops hops hcfg hs hu h
  rw [run_eq hops hs] at h
  obtain ⟨w, hw, rfl⟩ := mapNext_eq_next h
  refine ⟨behind (resetFd u) w, ?_, by rw [observe_behind, observe_behind]⟩
  rw [run_eq hops hu, ← hcfg, hw]
  rfl

/-- A CK or CAL operation has a result where its operand is within the limits and the tables are well-formed (rules R110, R194). -/
theorem unitResult_isSome {cfg : Config} {i : Instr} (hu : isCk i = true ∨ isCal i = true)
    (htab : isCal i = true → ∀ t, tableWf cfg (tab cfg t) = true) (hfit : withinLimits cfg i = true) :
    ∃ r, unitResult cfg i = some r := by
  have hcal : ∀ t raw (form : Int → Result), isCal i = true → ∃ r, (calibrate cfg t raw).map form = some r := by
    intro t raw form hi
    obtain ⟨y, hy⟩ := Option.isSome_iff_exists.mp (calibrate_isSome raw (htab hi t))
    exact ⟨form y, by rw [hy]; rfl⟩
  cases i with
  | csum bytes => exact ⟨_, if_pos hfit⟩
  | verify bytes => exact ⟨_, if_pos hfit⟩
  | build dst src sid data => exact ⟨_, if_pos hfit⟩
  | acks n => exact ⟨_, rfl⟩
  | ackp n => exact ⟨_, rfl⟩
  | interp t raw => exact hcal t raw _ rfl
  | tempa raw => exact hcal _ raw _ rfl
  | tempb raw => exact hcal _ raw _ rfl
  | press raw => exact hcal _ raw _ rfl
  | volt raw => exact hcal _ raw _ rfl
  | _ => simp [isCk, isCal] at hu

/-- An operation of a run is PUSH, CLR, or one of the units (rule R182). -/
theorem isRunOp_cases {i : Instr} (h : isRunOp i = true) :
    (∃ c, i = .push c) ∨ i = .clr ∨ isCk i = true ∨ isCal i = true := by
  cases i <;> simp_all [isRunOp, isCk, isCal]

/-- What an operation of a run leaves behind: the premises of the run, and one result where the operation has one. -/
structure RunStep (s : State) (i : Instr) (t : State) : Prop where
  ev : EvAlways t
  cfg : t.cfg = s.cfg
  quiet : quiescent t.buf = true
  results : ∃ rs, t.res = s.res ++ rs ∧ rs.map ResRecord.op = [i].filter (fun i => isCk i || isCal i)

/-- Under the premises of a run each of its operations answers. -/
theorem exec_runOp {i : Instr} {s : State} (hi : isRunOp i = true) (hev : EvAlways s) (hcap : CapacityOk s)
    (hq : quiescent s.buf = true) (htab : isCal i = true → TablesWellFormed s) (hfit : withinLimits s.cfg i = true) :
    ∃ t, exec i s = .next t ∧ RunStep s i t := by
  obtain ⟨c, rfl⟩ | rfl | hu := isRunOp_cases hi
  · exact ⟨_, exec_push c hev hcap, evAlways_drain hev, drain_cfg _, quiescent_drain hev, [], by simp [receive],
      by simp [isCk, isCal]⟩
  · exact ⟨clearBuf s, rfl, hev, rfl, rfl, [], by simp, by simp [isCk, isCal]⟩
  · obtain ⟨r, hr⟩ := unitResult_isSome hu htab hfit
    have hfilter : [i].filter (fun i => isCk i || isCal i) = [i] := List.filter_cons_of_pos (by simpa using hu)
    exact ⟨_, (exec_unit_iff hu).mpr ⟨r, hr, rfl⟩, hev, rfl, hq, [⟨i, r⟩], rfl, hfilter.symm⟩

/-- The operations of a run answer one after the other. -/
theorem runOps_ends {ops : List Instr} : ∀ {s : State}, RunOps ops → EvAlways s → CapacityOk s → quiescent s.buf = true →
    (∀ i ∈ ops, isCal i = true → TablesWellFormed s) → (∀ i ∈ ops, withinLimits s.cfg i = true) →
    ∃ t rs, runOps ops s = .next t ∧ quiescent t.buf = true ∧ t.res = s.res ++ rs ∧
      rs.map ResRecord.op = ops.filter (fun i => isCk i || isCal i) := by
  induction ops with
  | nil => exact fun {s} _ _ _ hq _ _ => ⟨s, [], rfl, hq, by simp, rfl⟩
  | cons i ops ih =>
    intro s hops hev hcap hq htab hfit
    obtain ⟨hi, hops⟩ := List.forall_mem_cons.mp hops
    obtain ⟨htabi, htab⟩ := List.forall_mem_cons.mp htab
    obtain ⟨hfiti, hfit⟩ := List.forall_mem_cons.mp hfit
    obtain ⟨u, hu, hstep⟩ := exec_runOp hi hev hcap hq htabi hfiti
    obtain ⟨rs, hres, hrs⟩ := hstep.results
    have hcfg := hstep.cfg
    obtain ⟨t, rs', ht, hqt, hres', hrs'⟩ := ih (s := u) hops hstep.ev (by rwa [CapacityOk, hcfg]) hstep.quiet
      (by unfold TablesWellFormed; rwa [hcfg]) (by rwa [hcfg])
    refine ⟨t, rs ++ rs', by rw [runOps, hu]; exact ht, hqt, by rw [hres', hres, List.append_assoc], ?_⟩
    rw [List.map_append, hrs, hrs', ← List.filter_append]
    rfl

/-- Settles O52: RST makes BUF quiescent, and each operation keeps it so and answers. -/
theorem aRunEndsQuiescentWithEveryCommandAnswered : Obligations.ARunEndsQuiescentWithEveryCommandAnswered := by
  intro s ops hops hev hcap htab hfit
  obtain ⟨t, rs, ht, hq, hres, hrs⟩ := runOps_ends (s := resetFd s) hops hev hcap rfl htab hfit
  refine ⟨t, ht, quiescent_cases hq, length_le_of_quiescent hq, ?_⟩
  have hdrop : t.res.drop s.res.length = rs := by rw [hres]; exact List.drop_left
  rw [observe, hdrop, hrs]

end Sys2Proof.Machine
end

/-! ## The Calibration Decoder (41_calibration_decoder.md, 10_state.md section 4) -/
section
namespace Sys2Proof.Machine

/-! ### Well-formed tables -/

theorem strictlyIncreasing_iff {points : List Breakpoint} :
    strictlyIncreasing points = true ↔ points.Pairwise (fun p q => p.raw < q.raw) := by
  have htrans : Trans (fun p q : Breakpoint => p.raw < q.raw) (fun p q : Breakpoint => p.raw < q.raw)
    (fun p q : Breakpoint => p.raw < q.raw) := ⟨Nat.lt_trans⟩
  rw [← List.isChain_iff_pairwise]
  induction points with
  | nil => simp [strictlyIncreasing]
  | cons p rest ih =>
    cases rest with
    | nil => simp [strictlyIncreasing]
    | cons q rest =>
      rw [strictlyIncreasing, Bool.and_eq_true_iff, decide_eq_true_iff, List.isChain_cons_cons]
      exact and_congr_right' ih

theorem fitsSigned_iff {w : Nat} {y : Int} :
    fitsSigned w y = true ↔ -(2 ^ (w - 1) : Int) ≤ y ∧ y < (2 ^ (w - 1) : Int) := by
  rw [fitsSigned, Bool.and_eq_true_iff, decide_eq_true_iff, decide_eq_true_iff]

/-- What a table that is well-formed satisfies (rule R30, decisions D11, D12). -/
structure TableWf (cfg : Config) (t : Table) : Prop where
  width : 2 ≤ cfg.physW
  nonempty : 1 ≤ t.points.length
  depth : ∀ d, cfg.lutDepth = some d → t.points.length ≤ d
  increasing : t.points.Pairwise (fun p q => p.raw < q.raw)
  raw_lt : ∀ p ∈ t.points, p.raw < 2 ^ rawBits t.rawW
  phys_ge : ∀ p ∈ t.points, -(2 ^ (cfg.physW - 1) : Int) ≤ p.phys
  phys_lt : ∀ p ∈ t.points, p.phys < (2 ^ (cfg.physW - 1) : Int)

theorem tableWf_iff {cfg : Config} {t : Table} : tableWf cfg t = true ↔ TableWf cfg t := by
  simp only [tableWf, Bool.and_eq_true_iff, decide_eq_true_iff, fits_iff, strictlyIncreasing_iff, List.all_eq_true,
    fitsSigned_iff]
  refine ⟨fun ⟨⟨⟨⟨hw, hn⟩, hd⟩, hi⟩, hp⟩ => ?_, fun h => ?_⟩
  · exact ⟨hw, hn, hd, hi, fun p m => (hp p m).1, fun p m => (hp p m).2.1, fun p m => (hp p m).2.2⟩
  · exact ⟨⟨⟨⟨h.width, h.nonempty⟩, h.depth⟩, h.increasing⟩, fun p m => ⟨h.raw_lt p m, h.phys_ge p m, h.phys_lt p m⟩⟩

/-- Settles O48. -/
theorem wellFormedTablesAreTheSpecs : Obligations.WellFormedTablesAreTheSpecs := by
  intro cfg t
  refine tableWf_iff.trans ⟨fun h => ?_, fun ⟨hw, hn, hd, hi, hp⟩ => ?_⟩
  · exact ⟨h.width, h.nonempty, h.depth, h.increasing, fun p m => ⟨h.raw_lt p m, h.phys_ge p m, h.phys_lt p m⟩⟩
  · exact ⟨hw, hn, hd, hi, fun p m => (hp p m).1, fun p m => (hp p m).2.1, fun p m => (hp p m).2.2⟩

/-- Settles O47. -/
theorem calRefusesExactlyMalformedTables : Obligations.CalRefusesExactlyMalformedTables := by
  intro s t raw
  have h : ∀ t op form, calOp t raw op form s = .refused (.malformedTable t) ↔ tableWf s.cfg (tab s.cfg t) = false :=
    fun t op form => calOp_refused.trans (and_iff_left rfl)
  exact ⟨h _ _ _, h _ _ _, h _ _ _, h _ _ _, h _ _ _⟩

/-! ### Rounding -/

theorem le_roundHalfUp_iff {x : Ratio} (hD : 0 < x.den) {m : Int} :
    m ≤ roundHalfUp x ↔ m * (2 * x.den) ≤ 2 * x.num + x.den := by
  rw [roundHalfUp, floorDiv_eq _ (by omega), Int.le_ediv_iff_mul_le (by omega)]

theorem roundHalfUp_lt_iff {x : Ratio} (hD : 0 < x.den) {m : Int} :
    roundHalfUp x < m ↔ 2 * x.num + x.den < m * (2 * x.den) := by
  rw [← not_le, le_roundHalfUp_iff hD, not_le]

/-- The two inequalities of rule R112 fix the rounded value. -/
theorem roundHalfUp_eq_iff {x : Ratio} (hD : 0 < x.den) {y : Int} : roundHalfUp x = y ↔
    y * (2 * x.den) ≤ 2 * x.num + x.den ∧ 2 * x.num + x.den < (y + 1) * (2 * x.den) := by
  rw [← le_roundHalfUp_iff hD, ← roundHalfUp_lt_iff hD, Int.lt_add_one_iff]
  omega

/-- A numerator between multiples of the divisor rounds to between the factors. -/
theorem roundHalfUp_bounds {x : Ratio} (hD : 0 < x.den) {a b : Int} (ha : a * x.den ≤ x.num) (hb : x.num ≤ b * x.den) :
    a ≤ roundHalfUp x ∧ roundHalfUp x ≤ b := by
  rw [le_roundHalfUp_iff hD, ← Int.lt_add_one_iff (a := roundHalfUp x), roundHalfUp_lt_iff hD]
  constructor <;> linarith

/-- Rounding is monotonic in the numerator. -/
theorem roundHalfUp_mono {m n D : Int} (hD : 0 < D) (h : m ≤ n) : roundHalfUp ⟨m, D⟩ ≤ roundHalfUp ⟨n, D⟩ := by
  have hm := (le_roundHalfUp_iff (x := ⟨m, D⟩) hD).mp le_rfl
  rw [le_roundHalfUp_iff hD]
  exact hm.trans (by simp only; omega)

/-! ### Between two breakpoints -/

/-- The rounded value between the breakpoints p and q (rules R111, R112). -/
def between (r : Int) (p q : Breakpoint) : Int := roundHalfUp (interpolateBetween r p q)

theorem bracketD_pos {p q : Breakpoint} (h : p.raw < q.raw) : 0 < bracketD p q := by
  rw [bracketD]
  omega

theorem interpolateBetween_eq (r : Int) (p q : Breakpoint) : interpolateBetween r p q = ⟨bracketN r p q, bracketD p q⟩ := rfl

/-- The numerator as a weighted sum of the two values. -/
theorem bracketN_eq (r : Int) (p q : Breakpoint) : bracketN r p q = p.phys * (q.raw - r) + q.phys * (r - p.raw) := by
  rw [bracketN, bracketD]
  ring

theorem between_left {p q : Breakpoint} (h : p.raw < q.raw) : between p.raw p q = p.phys := by
  have hN : bracketN p.raw p q = p.phys * bracketD p q := by rw [bracketN, sub_self, mul_zero, add_zero]
  have hb := roundHalfUp_bounds (x := interpolateBetween p.raw p q) (bracketD_pos h) hN.ge hN.le
  exact le_antisymm hb.2 hb.1

theorem between_right {p q : Breakpoint} (h : p.raw < q.raw) : between q.raw p q = q.phys := by
  have hN : bracketN q.raw p q = q.phys * bracketD p q := by rw [bracketN_eq, sub_self, mul_zero, zero_add, bracketD]
  have hb := roundHalfUp_bounds (x := interpolateBetween q.raw p q) (bracketD_pos h) hN.ge hN.le
  exact le_antisymm hb.2 hb.1

theorem between_bounds {p q : Breakpoint} {r : Int} (h : p.raw < q.raw) (hp : (p.raw : Int) ≤ r) (hq : r ≤ q.raw) :
    min p.phys q.phys ≤ between r p q ∧ between r p q ≤ max p.phys q.phys := by
  have hlo : 0 ≤ (q.raw : Int) - r := by omega
  have hhi : 0 ≤ r - (p.raw : Int) := by omega
  refine roundHalfUp_bounds (x := interpolateBetween r p q) (bracketD_pos h) ?_ ?_ <;>
    rw [interpolateBetween_eq] <;> simp only [bracketN_eq, bracketD]
  · have h1 := mul_le_mul_of_nonneg_right (min_le_left p.phys q.phys) hlo
    have h2 := mul_le_mul_of_nonneg_right (min_le_right p.phys q.phys) hhi
    linarith
  · have h1 := mul_le_mul_of_nonneg_right (le_max_left p.phys q.phys) hlo
    have h2 := mul_le_mul_of_nonneg_right (le_max_right p.phys q.phys) hhi
    linarith

/-- The rounded value is within one half of the exact one. -/
theorem between_half {p q : Breakpoint} (r : Int) (h : p.raw < q.raw) :
    2 * |between r p q * bracketD p q - bracketN r p q| ≤ bracketD p q := by
  obtain ⟨h1, h2⟩ := (roundHalfUp_eq_iff (x := interpolateBetween r p q) (bracketD_pos h)).mp rfl
  change between r p q * (2 * bracketD p q) ≤ 2 * bracketN r p q + bracketD p q at h1
  change 2 * bracketN r p q + bracketD p q < (between r p q + 1) * (2 * bracketD p q) at h2
  rw [← abs_two, ← abs_mul, abs_le]
  constructor <;> linarith

/-! ### The value at a raw operand -/

theorem interp_singleton (r : Int) (p : Breakpoint) : interp r [p] = some p.phys := by
  have h : interpExact r [p] = some ⟨p.phys, 1⟩ := by
    simp only [interpExact, List.head?_cons, List.getLast?_singleton]
    split_ifs
    · rfl
    · rfl
    · omega
  rw [interp, h, Option.map_some, roundHalfUp_integer]

theorem interp_of_le_head {r : Int} {p : Breakpoint} (rest : List Breakpoint) (h : r ≤ p.raw) :
    interp r (p :: rest) = some p.phys := by
  have hx : interpExact r (p :: rest) = some ⟨p.phys, 1⟩ := by
    simp [interpExact, List.getLast?_eq_some_getLast (List.cons_ne_nil p rest), h]
  rw [interp, hx, Option.map_some, roundHalfUp_integer]

theorem interp_of_head_lt {r : Int} {p last : Breakpoint} {rest : List Breakpoint} (hp : (p.raw : Int) < r)
    (hlast : (p :: rest).getLast? = some last) : interp r (p :: rest) =
      if (last.raw : Int) ≤ r then some last.phys else (bracket r (p :: rest)).map (fun pq => between r pq.1 pq.2) := by
  simp only [interp, interpExact, List.head?_cons, hlast, if_neg (not_le.mpr hp)]
  split_ifs
  · rw [Option.map_some, roundHalfUp_integer]
  · rw [Option.map_map]
    rfl

/-- Below the second breakpoint the value lies between the first two, clamped at the first; from there on the first does not
matter (rule R111). At the second breakpoint itself both brackets give its value. -/
theorem interp_cons_cons {r : Int} {p q : Breakpoint} {rest : List Breakpoint}
    (hinc : (p :: q :: rest).Pairwise (fun p q => p.raw < q.raw)) :
    interp r (p :: q :: rest) = if r < q.raw then some (between (max r p.raw) p q) else interp r (q :: rest) := by
  obtain ⟨hp, hq⟩ := List.pairwise_cons.mp hinc
  obtain ⟨hqs, -⟩ := List.pairwise_cons.mp hq
  have hpq : p.raw < q.raw := hp q List.mem_cons_self
  obtain ⟨last, hlast⟩ : ∃ last, (q :: rest).getLast? = some last :=
    ⟨_, List.getLast?_eq_some_getLast (List.cons_ne_nil q rest)⟩
  have hmem : last = q ∨ last ∈ rest := List.mem_cons.mp (List.mem_of_getLast? hlast)
  obtain hle | hlt := le_or_gt r p.raw
  · rw [interp_of_le_head _ hle, if_pos (by omega), max_eq_right hle, between_left hpq]
  rw [max_eq_left hlt.le, interp_of_head_lt hlt (List.getLast?_cons_cons.trans hlast), bracket]
  obtain hrq | hqr := lt_or_ge r (q.raw : Int)
  · have hopen : ¬ (last.raw : Int) ≤ r := by
      obtain rfl | hmem := hmem
      · omega
      · have := hqs last hmem
        omega
    rw [if_neg hopen, if_pos ⟨hlt.le, hrq⟩, if_pos hrq]
    rfl
  rw [if_neg (c := (p.raw : Int) ≤ r ∧ r < q.raw) (by omega), if_neg (not_lt.mpr hqr)]
  obtain hqr | rfl := hqr.lt_or_eq
  · exact (interp_of_head_lt hqr hlast).symm
  rw [interp_of_le_head rest le_rfl]
  cases rest with
  | nil =>
    obtain rfl : q = last := by simpa using hlast
    rw [if_pos le_rfl]
  | cons x rest =>
    have hqx : q.raw < x.raw := hqs x List.mem_cons_self
    have hopen : ¬ (last.raw : Int) ≤ q.raw := by
      have := hqs last (List.mem_of_getLast? (List.getLast?_cons_cons.symm.trans hlast))
      omega
    rw [if_neg hopen, bracket, if_pos ⟨le_rfl, by omega⟩]
    exact congrArg some (between_left hqx)

theorem raw_lt_of_infix {points : List Breakpoint} {p q : Breakpoint}
    (hinc : points.Pairwise (fun p q => p.raw < q.raw)) (hin : [p, q] <:+: points) : p.raw < q.raw :=
  (List.pairwise_cons.mp (hinc.sublist hin.sublist)).1 q List.mem_cons_self

theorem mem_of_infix_left {points : List Breakpoint} {p q : Breakpoint} (hin : [p, q] <:+: points) : p ∈ points :=
  hin.subset List.mem_cons_self

theorem mem_of_infix_right {points : List Breakpoint} {p q : Breakpoint} (hin : [p, q] <:+: points) : q ∈ points :=
  hin.subset (List.mem_cons_of_mem p List.mem_cons_self)

/-- From the second breakpoint on the first does not matter. -/
theorem interp_cons_of_le {r : Int} {p q : Breakpoint} {rest : List Breakpoint}
    (hinc : (p :: rest).Pairwise (fun p q => p.raw < q.raw)) (hq : q ∈ rest) (hr : (q.raw : Int) ≤ r) :
    interp r (p :: rest) = interp r rest := by
  cases rest with
  | nil => cases hq
  | cons x rest =>
    have hx : x.raw ≤ q.raw := by
      obtain rfl | hmem := List.mem_cons.mp hq
      · exact le_rfl
      · exact ((List.pairwise_cons.mp (List.pairwise_cons.mp hinc).2).1 q hmem).le
    rw [interp_cons_cons hinc, if_neg (by omega)]

/-- A breakpoint has its own value (41_calibration_decoder.md section 3, law (b)). -/
theorem interp_breakpoint {points : List Breakpoint} (hinc : points.Pairwise (fun p q => p.raw < q.raw)) {p : Breakpoint}
    (hp : p ∈ points) : interp p.raw points = some p.phys := by
  induction points with
  | nil => cases hp
  | cons a rest ih =>
    obtain rfl | hmem := List.mem_cons.mp hp
    · exact interp_of_le_head rest le_rfl
    · rw [interp_cons_of_le hinc hmem le_rfl]
      exact ih (List.pairwise_cons.mp hinc).2 hmem

/-- At or above the last breakpoint the value is its value (rule R111). -/
theorem interp_of_last_le {r : Int} {points : List Breakpoint} (hinc : points.Pairwise (fun p q => p.raw < q.raw))
    {p : Breakpoint} (hp : points.getLast? = some p) (hr : (p.raw : Int) ≤ r) : interp r points = some p.phys := by
  induction points with
  | nil => cases hp
  | cons a rest ih =>
    cases rest with
    | nil =>
      cases hp
      exact interp_singleton r a
    | cons x rest =>
      rw [List.getLast?_cons_cons] at hp
      rw [interp_cons_of_le hinc (List.mem_of_getLast? hp) hr]
      exact ih (List.pairwise_cons.mp hinc).2 hp

/-- Between two neighbours the value is the rounded one between them (rules R111, R112). -/
theorem interp_of_bracket {r : Int} {points : List Breakpoint} (hinc : points.Pairwise (fun p q => p.raw < q.raw))
    {p q : Breakpoint} (hin : [p, q] <:+: points) (hp : (p.raw : Int) ≤ r) (hq : r < q.raw) :
    interp r points = some (between r p q) := by
  induction points with
  | nil => cases List.eq_nil_of_infix_nil hin
  | cons a rest ih =>
    obtain hpre | hin := List.infix_cons_iff.mp hin
    · obtain ⟨tail, heq⟩ := hpre
      obtain ⟨rfl, rfl⟩ : p = a ∧ q :: tail = rest := List.cons_eq_cons.mp heq
      rw [interp_cons_cons hinc, if_pos hq, max_eq_left hp]
    · rw [interp_cons_of_le hinc (mem_of_infix_left hin) hp]
      exact ih (List.pairwise_cons.mp hinc).2 hin

/-- A value is that of a breakpoint, or the rounded one between two neighbours (rule R111). -/
theorem interp_cases {r y : Int} {points : List Breakpoint} (h : interp r points = some y) :
    (∃ p ∈ points, y = p.phys) ∨
      ∃ p q, [p, q] <:+: points ∧ (p.raw : Int) ≤ r ∧ r < q.raw ∧ y = between r p q := by
  cases points with
  | nil => cases h
  | cons p rest =>
    obtain hle | hlt := le_or_gt r p.raw
    · rw [interp_of_le_head rest hle] at h
      exact .inl ⟨p, List.mem_cons_self, (Option.some.inj h).symm⟩
    · have hlast := List.getLast?_eq_some_getLast (List.cons_ne_nil p rest)
      rw [interp_of_head_lt hlt hlast] at h
      split_ifs at h with hr
      · exact .inl ⟨_, List.mem_of_getLast? hlast, (Option.some.inj h).symm⟩
      · obtain ⟨⟨a, b⟩, hb, hy⟩ := Option.map_eq_some_iff.mp h
        obtain ⟨hin, ha, hb⟩ := bracket_spec r _ a b hb
        exact .inr ⟨a, b, hin, ha, hb, hy.symm⟩

/-! ### The value the rules give -/

theorem isInterp_of_interp {r y : Int} {points : List Breakpoint} (hinc : points.Pairwise (fun p q => p.raw < q.raw))
    (h : interp r points = some y) : IsInterp r points y := by
  refine ⟨fun p hp hr => ?_, fun p hp hr => ?_, fun p q hin hp hq => ?_⟩
  · obtain ⟨rest, rfl⟩ := List.head?_eq_some_iff.mp hp
    rw [interp_of_le_head rest hr] at h
    exact (Option.some.inj h).symm
  · rw [interp_of_last_le hinc hp hr] at h
    exact (Option.some.inj h).symm
  · rw [interp_of_bracket hinc hin hp hq] at h
    obtain ⟨h1, h2⟩ := (roundHalfUp_eq_iff (x := interpolateBetween r p q)
      (bracketD_pos (raw_lt_of_infix hinc hin))).mp (Option.some.inj h)
    exact ⟨(mul_comm _ _).trans_le h1, h2.trans_eq (mul_comm _ _)⟩

/-- The rules give one value: the three cases of rule R111 leave no raw value out. -/
theorem isInterp_unique {r y z : Int} {points : List Breakpoint} (hne : points ≠ [])
    (hinc : points.Pairwise (fun p q => p.raw < q.raw)) (hy : IsInterp r points y) (hz : IsInterp r points z) : y = z := by
  obtain ⟨hy1, hy2, hy3⟩ := hy
  obtain ⟨hz1, hz2, hz3⟩ := hz
  obtain ⟨p, rest, rfl⟩ := List.exists_cons_of_ne_nil hne
  have hlast := List.getLast?_eq_some_getLast hne
  obtain hle | hlt := le_or_gt r p.raw
  · rw [hy1 p rfl hle, hz1 p rfl hle]
  obtain hr | hr := le_or_gt (((p :: rest).getLast hne).raw : Int) r
  · rw [hy2 _ hlast hr, hz2 _ hlast hr]
  obtain ⟨⟨a, b⟩, hb⟩ := Option.isSome_iff_exists.mp (bracket_isSome r p rest hlt.le (by
    intro l hl
    rw [hlast] at hl
    cases hl
    exact hr))
  obtain ⟨hin, ha, hb⟩ := bracket_spec r _ a b hb
  have hround : ∀ {w}, 2 * bracketD a b * w ≤ 2 * bracketN r a b + bracketD a b ∧
      2 * bracketN r a b + bracketD a b < 2 * bracketD a b * (w + 1) → between r a b = w := fun ⟨h1, h2⟩ =>
    (roundHalfUp_eq_iff (x := interpolateBetween r a b) (bracketD_pos (raw_lt_of_infix hinc hin))).mpr
      ⟨(mul_comm _ _).trans_le h1, h2.trans_eq (mul_comm _ _)⟩
  rw [← hround (hy3 a b hin ha hb), ← hround (hz3 a b hin ha hb)]

/-- Settles O46: the delivered value is the interpolated one, which the rules fix. -/
theorem calOperationsDeliverTheInterpolatedValue : Obligations.CalOperationsDeliverTheInterpolatedValue := by
  intro s t raw hwf
  have hinc := (tableWf_iff.mp hwf).increasing
  obtain ⟨y, hy⟩ := Option.isSome_iff_exists.mp (calibrate_isSome raw hwf)
  have hinterp : interp raw.toNat (tab s.cfg t).points = some y := by
    rwa [calibrate, if_pos hwf] at hy
  have hval := isInterp_of_interp hinc hinterp
  have hcal : ∀ op form, calOp t raw op form s = .next (deliver op (form y) s) :=
    fun op form => calOp_next.mpr ⟨y, hy, rfl⟩
  refine ⟨y, hval, fun y' hy' => isInterp_unique (tableWf_ne_nil hwf) hinc hy' hval, hcal _ _, ?_, ?_, ?_, ?_⟩ <;>
    rintro rfl
  · exact hcal _ _
  · exact hcal _ _
  · exact hcal _ _
  · exact hcal _ _

/-- Every value lies between those of two breakpoints (law (c)). -/
theorem interp_bounds {r y : Int} {points : List Breakpoint} (hinc : points.Pairwise (fun p q => p.raw < q.raw))
    (h : interp r points = some y) : ∃ lo ∈ points, ∃ hi ∈ points, lo.phys ≤ y ∧ y ≤ hi.phys := by
  obtain ⟨p, hp, rfl⟩ | ⟨p, q, hin, hp, hq, rfl⟩ := interp_cases h
  · exact ⟨p, hp, p, hp, le_rfl, le_rfl⟩
  · have hp' := mem_of_infix_left hin
    have hq' := mem_of_infix_right hin
    obtain ⟨hlo, hhi⟩ := between_bounds (raw_lt_of_infix hinc hin) hp hq.le
    obtain hle | hle := le_total p.phys q.phys
    · exact ⟨p, hp', q, hq', (min_eq_left hle).ge.trans hlo, hhi.trans (max_eq_right hle).le⟩
    · exact ⟨q, hq', p, hp', (min_eq_right hle).ge.trans hlo, hhi.trans (max_eq_left hle).le⟩

/-- Settles O49. -/
theorem interpolationStaysBetweenItsBreakpoints : Obligations.InterpolationStaysBetweenItsBreakpoints := by
  intro cfg t hwf
  have ht := tableWf_iff.mp hwf
  refine ⟨fun p hp => interp_breakpoint ht.increasing hp, fun r y h => ⟨interp_bounds ht.increasing h, ?_, ?_⟩⟩
  · intro p q hin hp hq
    have hpq := raw_lt_of_infix ht.increasing hin
    rw [interp_of_bracket ht.increasing hin hp hq] at h
    cases h
    obtain ⟨hlo, hhi⟩ := between_bounds hpq hp hq.le
    exact ⟨hlo, hhi, between_half r hpq⟩
  · obtain ⟨lo, hlo, hi, hhi, h1, h2⟩ := interp_bounds ht.increasing h
    have hw := ht.width
    exact BitVec.toInt_ofInt_eq_self (by omega) ((ht.phys_ge lo hlo).trans h1) (h2.trans_lt (ht.phys_lt hi hhi))

/-! ### Monotonicity -/

/-- A relation that holds along every bracket whose ends it relates holds along the whole of a table whose values it relates. -/
theorem interp_related {R : Int → Int → Prop} (hrefl : ∀ y, R y y) (htrans : ∀ {x y z}, R x y → R y z → R x z)
    (hbetween : ∀ {p q : Breakpoint} {r r' : Int}, p.raw < q.raw → R p.phys q.phys → r ≤ r' →
      R (between r p q) (between r' p q))
    {points : List Breakpoint} (hinc : points.Pairwise (fun p q => p.raw < q.raw))
    (hphys : points.Pairwise (fun p q => R p.phys q.phys)) :
    ∀ {r r' y y' : Int}, r ≤ r' → interp r points = some y → interp r' points = some y' → R y y' := by
  induction points with
  | nil => intro r r' y y' _ h _; cases h
  | cons p rest ih =>
    cases rest with
    | nil =>
      intro r r' y y' _ h h'
      rw [interp_singleton] at h h'
      cases h
      cases h'
      exact hrefl _
    | cons q rest =>
      intro r r' y y' hr h h'
      obtain ⟨hp, hinc'⟩ := List.pairwise_cons.mp hinc
      obtain ⟨hR, hphys'⟩ := List.pairwise_cons.mp hphys
      have hpq : p.raw < q.raw := hp q List.mem_cons_self
      have hRpq : R p.phys q.phys := hR q List.mem_cons_self
      have hq : interp q.raw (q :: rest) = some q.phys := interp_of_le_head rest le_rfl
      rw [interp_cons_cons hinc] at h h'
      obtain hqr | hrq := le_or_gt (q.raw : Int) r
      · rw [if_neg (not_lt.mpr hqr)] at h
        rw [if_neg (not_lt.mpr (hqr.trans hr))] at h'
        exact ih hinc' hphys' hr h h'
      rw [if_pos hrq] at h
      cases h
      obtain hqr' | hrq' := le_or_gt (q.raw : Int) r'
      · rw [if_neg (not_lt.mpr hqr')] at h'
        have hleft := hbetween (r := max r p.raw) (r' := q.raw) hpq hRpq (max_le hrq.le (by omega))
        rw [between_right hpq] at hleft
        exact htrans hleft (ih hinc' hphys' hqr' hq h')
      · rw [if_pos hrq'] at h'
        cases h'
        exact hbetween hpq hRpq (max_le_max_right _ hr)

theorem between_mono {p q : Breakpoint} {r r' : Int} (hpq : p.raw < q.raw) (h : p.phys ≤ q.phys) (hr : r ≤ r') :
    between r p q ≤ between r' p q := by
  refine roundHalfUp_mono (bracketD_pos hpq) (Int.add_le_add_left ?_ _)
  exact mul_le_mul_of_nonneg_left (by omega) (by omega)

theorem between_anti {p q : Breakpoint} {r r' : Int} (hpq : p.raw < q.raw) (h : q.phys ≤ p.phys) (hr : r ≤ r') :
    between r' p q ≤ between r p q := by
  refine roundHalfUp_mono (bracketD_pos hpq) (Int.add_le_add_left ?_ _)
  exact mul_le_mul_of_nonpos_left (by omega) (by omega)

/-- Settles O50: for each order of the values, since it holds along every bracket. -/
theorem interpolationIsMonotonic : Obligations.InterpolationIsMonotonic := by
  intro points r r' y y' hinc hr h h'
  refine ⟨fun hphys => ?_, fun hphys => ?_⟩
  · exact interp_related (R := fun x y => x ≤ y) le_refl le_trans between_mono hinc hphys hr h h'
  · exact interp_related (R := fun x y => y ≤ x) le_refl (fun h h' => le_trans h' h) between_anti hinc hphys hr h h'

/-! ### Widths -/

/-- Between two breakpoints the numerator is at most the largest value times the divisor. -/
theorem abs_bracketN_le {p q : Breakpoint} {r M : Int} (hp : (p.raw : Int) ≤ r) (hq : r ≤ q.raw) (hpM : |p.phys| ≤ M)
    (hqM : |q.phys| ≤ M) : |bracketN r p q| ≤ M * bracketD p q := by
  have hlo : |(q.raw : Int) - r| = q.raw - r := abs_of_nonneg (by omega)
  have hhi : |r - (p.raw : Int)| = r - p.raw := abs_of_nonneg (by omega)
  calc |bracketN r p q| ≤ |p.phys * (q.raw - r)| + |q.phys * (r - p.raw)| := by rw [bracketN_eq]; exact abs_add_le _ _
    _ = |p.phys| * (q.raw - r) + |q.phys| * (r - p.raw) := by rw [abs_mul, abs_mul, hlo, hhi]
    _ ≤ M * (q.raw - r) + M * (r - p.raw) :=
      add_le_add (mul_le_mul_of_nonneg_right hpM (by omega)) (mul_le_mul_of_nonneg_right hqM (by omega))
    _ = M * bracketD p q := by rw [bracketD]; ring

/-- Settles O51: the numerator is below half of `2 ^ (PHYS_W + RAW_W)`, and the division floors. -/
theorem interpolationFitsItsAccumulator : Obligations.InterpolationFitsItsAccumulator := by
  intro cfg t p q r hwf hin hp hq
  have ht := tableWf_iff.mp hwf
  have hpq := raw_lt_of_infix ht.increasing hin
  have hDpos := bracketD_pos hpq
  obtain ⟨hfloor, hceil⟩ := (roundHalfUp_eq_iff (x := interpolateBetween r p q) hDpos).mp rfl
  have hDlt : bracketD p q < 2 ^ rawBits t.rawW := by
    have hraw : (q.raw : Int) < 2 ^ rawBits t.rawW := by exact_mod_cast ht.raw_lt q (mem_of_infix_right hin)
    rw [bracketD]
    omega
  have habs : ∀ b ∈ t.points, |b.phys| ≤ 2 ^ (cfg.physW - 1) :=
    fun b hb => abs_le.mpr ⟨ht.phys_ge b hb, (ht.phys_lt b hb).le⟩
  have hN := abs_bracketN_le hp hq.le (habs p (mem_of_infix_left hin)) (habs q (mem_of_infix_right hin))
  have hhalf : 2 * (2 ^ (cfg.physW - 1) * bracketD p q) ≤ 2 ^ (cfg.physW + rawBits t.rawW) := by
    have hw : cfg.physW - 1 + 1 = cfg.physW := Nat.sub_add_cancel (by have := ht.width; omega)
    calc (2 : Int) * (2 ^ (cfg.physW - 1) * bracketD p q) = 2 ^ cfg.physW * bracketD p q := by
          rw [← mul_assoc, ← pow_succ', hw]
      _ ≤ 2 ^ cfg.physW * 2 ^ rawBits t.rawW := mul_le_mul_of_nonneg_left hDlt.le (by positivity)
      _ = 2 ^ (cfg.physW + rawBits t.rawW) := (pow_add _ _ _).symm
  have hDK : bracketD p q < 2 ^ (cfg.physW + rawBits t.rawW) :=
    hDlt.trans_le (pow_le_pow_right₀ (by norm_num) (Nat.le_add_left _ _))
  rw [interpolateBetween_eq] at hfloor hceil ⊢
  rw [pow_succ, pow_add _ _ 3]
  generalize (2 : Int) ^ (cfg.physW + rawBits t.rawW) = K at *
  obtain ⟨hNlo, hNhi⟩ := abs_le.mp hN
  refine ⟨hDpos, Int.le_sub_one_of_lt hDlt, abs_lt.mpr ⟨?_, ?_⟩, abs_lt.mpr ⟨?_, ?_⟩, hfloor, hceil⟩ <;>
    simp only <;> linarith

end Sys2Proof.Machine
end
